-- ==== Sys2Proof/Word.lean ====
section
/-! DEFINITION. The byte, the one datum width of the hardware (00_scope.md R6, R15; 20_memory.md R77). -/

namespace Sys2Proof

/-- An unsigned 8-bit value (10_state.md R21): a register, a memory cell, an opcode, an operand. -/
abbrev Byte := BitVec 8

end Sys2Proof
end

