-- ==== Sys2Proof/Config.lean ====
section
/-! DEFINITION. The identification of the hardware, and its implementation parameters (00_scope.md section 3). Their values in the reference
configuration stand in Machine/Reference.lean. The spec leaves no value free (40_cycle.md R144), so there is
no free value here. -/

namespace Sys2Proof

/-- The identification of the hardware this package models (00_scope.md R2); the spec gives it no other ISA name. -/
def hardwareName : String :=
  "Computer-Architecture-One CORE, source spec v7"

/-- The bytes the JMP opcode may be: those of the form 01010xxx that no other instruction uses
(00_scope.md R12). -/
inductive JmpOpcode where
  | op50 | op53 | op54 | op55 | op56 | op57
  deriving DecidableEq, Repr

/-- What an implementation fixes. -/
structure Params where
  /-- `MEM_SIZE`, the number of byte cells (00_scope.md R7). -/
  memSize : Nat
  /-- `INTERRUPTS`: true is `present`, false is `absent` (00_scope.md R9). -/
  interrupts : Bool
  /-- `VECTOR_BASE`, used only with `INTERRUPTS = present` (00_scope.md R10). -/
  vectorBase : Nat
  /-- `HLT_ADVANCES_PC` (00_scope.md R11). -/
  hltAdvancesPc : Bool
  /-- `JMP_OPCODE` (00_scope.md R12). -/
  jmpOpcode : JmpOpcode
  deriving DecidableEq, Repr

/-- `SP_INIT` (00_scope.md R8). -/
def spInit : Byte := 0xF4#8

/-- The bounds 00_scope.md R7 says a model must keep (spec decision D20): the initial stack pointer addresses memory
below it, and with interrupts present the eight vectors lie in memory. `State.resetWith` asks for a proof of them, and
`State.Inv` keeps them. UNVERIFIED, log 30; safe. -/
abbrev Params.legal (p : Params) : Prop :=
  spInit.toNat ≤ p.memSize ∧ (p.interrupts = false ∨ p.vectorBase + 8 ≤ p.memSize)

end Sys2Proof
end

