-- ==== Sys2Proof/Machine/Reference.lean ====
section
/-! DEFINITION. The parameter values of the reference configuration (00_scope.md, summary of parameters). -/

namespace Sys2Proof

/-- The defaults of 00_scope.md R7, R9, R10, R11, R12. All but MEM_SIZE are the spec's own decisions: UNVERIFIED, log 6
(safe), log 7, log 15 and log 20 (unsafe). -/
def Params.reference : Params where
  memSize := 256
  interrupts := true
  vectorBase := 0xF8
  hltAdvancesPc := true
  jmpOpcode := .op50

/-- The reference configuration is within the bounds of 00_scope.md R7. -/
theorem Params.reference_legal : Params.reference.legal := by
  decide

end Sys2Proof
end

