-- ==== Sys2Proof/Syntax.lean ====
section
/-! DEFINITION. The instructions, one constructor per row of spec/opcode_table.json, and the names the
instruction set uses: registers, mnemonics, formats. -/

namespace Sys2Proof

/-- The eight registers R0 to R7 (10_state.md R21). -/
inductive Reg where
  | r0 | r1 | r2 | r3 | r4 | r5 | r6 | r7
  deriving DecidableEq, Repr

/-- IM, the interrupt mask (10_state.md R22, R47). -/
abbrev Reg.im : Reg := .r5
/-- IS, the interrupt status (10_state.md R22, R48). -/
abbrev Reg.is : Reg := .r6
/-- SP, the stack pointer (10_state.md R22, R46). -/
abbrev Reg.sp : Reg := .r7

/-- The sixteen mnemonics the decoder can answer (30_encoding.md R113). -/
inductive Kind where
  | ldi | prn | hlt | mul | add | and | cmp | inc | dec | div
  | jmp | jeq | jne | call | int | iret
  deriving DecidableEq, Repr

/-- The four formats (30_encoding.md R104). -/
inductive Format where
  /-- Opcode alone. -/
  | f0
  /-- Opcode, register index. -/
  | fr
  /-- Opcode, register index, immediate. -/
  | fri
  /-- Opcode, two register indices. -/
  | frr
  deriving DecidableEq, Repr

/-- The instructions. A register operand is the WHOLE operand byte (30_encoding.md R107): a byte of 8 or more
is a form the hardware runs (it raises BadRegisterIndex, 10_state.md R24), so the syntax holds it. -/
inductive Instr where
  /-- LDI (41_basic.md R150). -/
  | ldi (a imm : Byte)
  /-- PRN (41_basic.md R151). -/
  | prn (a : Byte)
  /-- HLT (41_basic.md R152). -/
  | hlt
  /-- MUL (42_alu.md R162). -/
  | mul (a b : Byte)
  /-- ADD (42_alu.md R163). -/
  | add (a b : Byte)
  /-- AND (42_alu.md R164). -/
  | and (a b : Byte)
  /-- CMP (42_alu.md R165). -/
  | cmp (a b : Byte)
  /-- INC (42_alu.md R166). -/
  | inc (a : Byte)
  /-- DEC (42_alu.md R167). -/
  | dec (a : Byte)
  /-- DIV (42_alu.md R168). -/
  | div (a b : Byte)
  /-- JMP (43_control.md R180). -/
  | jmp (a : Byte)
  /-- JEQ (43_control.md R181). -/
  | jeq (a : Byte)
  /-- JNE (43_control.md R182). -/
  | jne (a : Byte)
  /-- CALL (43_control.md R183). -/
  | call (a : Byte)
  /-- INT (44_interrupt.md R190). -/
  | int (a : Byte)
  /-- IRET (44_interrupt.md R191). -/
  | iret
  deriving DecidableEq, Repr

end Sys2Proof
end

