-- ==== Sys2Proof/WellFormed.lean ====
section
/-! DEFINITION. When an instruction is well formed: its option is present and every register operand names a
register (30_encoding.md R104 "must be 0..7", R109 column "option"). An instruction that is not well formed still
has a meaning: it raises the error the spec names. -/

namespace Sys2Proof

/-- The option column of 30_encoding.md R109: INT and IRET exist only with `INTERRUPTS = present`. -/
def Instr.present (p : Params) : Instr → Bool
  | .int _ => p.interrupts
  | .iret => p.interrupts
  | .ldi _ _ | .prn _ | .hlt | .mul _ _ | .add _ _ | .and _ _ | .cmp _ _ | .inc _ | .dec _ | .div _ _
  | .jmp _ | .jeq _ | .jne _ | .call _ => true

/-- The register-index operands, in operand order (10_state.md R24). -/
def Instr.regOperands : Instr → List Byte
  | .hlt | .iret => []
  | .ldi a _ | .prn a | .inc a | .dec a | .jmp a | .jeq a | .jne a | .call a | .int a => [a]
  | .mul a b | .add a b | .and a b | .cmp a b | .div a b => [a, b]

/-- Well-formedness under the parameters `p`. -/
def Instr.wellFormed (p : Params) (i : Instr) : Bool :=
  i.present p && i.regOperands.all (fun a => decide (a.toNat < 8))

end Sys2Proof
end

