-- ==== Sys2Proof/Decode.lean ====
section
/-! DEFINITION. The decoder (30_encoding.md sections 1 to 6), then the encoder, written a second time from the
instruction rules' own Encoding lines. -/

namespace Sys2Proof

/-! ## Decoder -/

/-- The byte a JMP opcode parameter stands for (00_scope.md R12). -/
def JmpOpcode.byte : JmpOpcode → Byte
  | .op50 => 0b01010000#8
  | .op53 => 0b01010011#8
  | .op54 => 0b01010100#8
  | .op55 => 0b01010101#8
  | .op56 => 0b01010110#8
  | .op57 => 0b01010111#8

/-- The opcode map: the rows of 30_encoding.md R109 that exist under the parameters (R110, R114). -/
def opcodeMap (p : Params) : List (Byte × Kind) :=
  [(0b10011001#8, .ldi), (0b01000011#8, .prn), (0b00000001#8, .hlt), (0b10101010#8, .mul),
   (0b10101000#8, .add), (0b10110011#8, .and), (0b10100000#8, .cmp), (0b01111000#8, .inc),
   (0b01111001#8, .dec), (0b10101011#8, .div), (p.jmpOpcode.byte, .jmp), (0b01010001#8, .jeq),
   (0b01010010#8, .jne), (0b01001000#8, .call)]
  ++ bif p.interrupts then [(0b01001010#8, .int), (0b00001011#8, .iret)] else []

/-- The decoder unit's `kind` (30_encoding.md R113): a match of the whole opcode byte; none is `UNKNOWN`. -/
def decodeKind (p : Params) (ir : Byte) : Option Kind :=
  (opcodeMap p).lookup ir

/-- The length rule `len = IR[7:6] + 1` (30_encoding.md R100). -/
def lengthOf (ir : Byte) : Nat :=
  (ir.toNat >>> 6) + 1

/-- The decoder unit's `format` (30_encoding.md R104, R109). -/
def Kind.format : Kind → Format
  | .hlt | .iret => .f0
  | .prn | .inc | .dec | .jmp | .jeq | .jne | .call | .int => .fr
  | .ldi => .fri
  | .mul | .add | .and | .cmp | .div => .frr

/-- How many operand bytes a format names (30_encoding.md R104). -/
def Format.operandCount : Format → Nat
  | .f0 => 0
  | .fr => 1
  | .fri | .frr => 2

/-- The instruction of a mnemonic with its operand bytes; the bytes its format does not name are ignored
(30_encoding.md R105). -/
def Kind.instr (k : Kind) (opA opB : Byte) : Instr :=
  match k with
  | .ldi => .ldi opA opB
  | .prn => .prn opA
  | .hlt => .hlt
  | .mul => .mul opA opB
  | .add => .add opA opB
  | .and => .and opA opB
  | .cmp => .cmp opA opB
  | .inc => .inc opA
  | .dec => .dec opA
  | .div => .div opA opB
  | .jmp => .jmp opA
  | .jeq => .jeq opA
  | .jne => .jne opA
  | .call => .call opA
  | .int => .int opA
  | .iret => .iret

/-- Decoding of the three bytes a tick fetches (40_cycle.md R134): none is `UnknownOpcode`. -/
def decodeFetched (p : Params) (ir opA opB : Byte) : Option Instr :=
  (decodeKind p ir).map (·.instr opA opB)

/-- Why a byte string holds no instruction. -/
inductive DecodeReject where
  /-- There is no opcode byte. -/
  | noBytes
  /-- The opcode byte is not in the opcode map (30_encoding.md R115). -/
  | unknownOpcode (ir : Byte)
  /-- Fewer operand bytes than the opcode's format names. -/
  | truncated (ir : Byte)
  deriving DecidableEq, Repr

/-- Decoding of any bytes: the first instruction and the bytes after it, or the reason there is none. -/
def decode (p : Params) : List Byte → Except DecodeReject (Instr × List Byte)
  | [] => .error .noBytes
  | ir :: rest =>
    match decodeKind p ir with
    | none => .error (.unknownOpcode ir)
    | some k =>
      match k.format, rest with
      | .f0, rest => .ok (k.instr 0 0, rest)
      | .fr, a :: rest => .ok (k.instr a 0, rest)
      | .fri, a :: b :: rest => .ok (k.instr a b, rest)
      | .frr, a :: b :: rest => .ok (k.instr a b, rest)
      | _, _ => .error (.truncated ir)

/-- Byte `k` of a table word, whose bit 0 is the least significant bit of the first byte. -/
def tableByte (nbits w k : Nat) : Byte :=
  BitVec.ofNat 8 (w % 2 ^ nbits / 256 ^ k)

/-- The instruction the decoder reads from a word of spec/opcode_table.json. -/
def decodeTableWord (nbits w : Nat) : Option Instr :=
  match decode Params.reference [tableByte nbits w 0, tableByte nbits w 1, tableByte nbits w 2] with
  | .ok (i, _) => some i
  | .error _ => none

/-! ## Encoder -/

/-- The mnemonic of an instruction. -/
def Instr.kind : Instr → Kind
  | .ldi _ _ => .ldi
  | .prn _ => .prn
  | .hlt => .hlt
  | .mul _ _ => .mul
  | .add _ _ => .add
  | .and _ _ => .and
  | .cmp _ _ => .cmp
  | .inc _ => .inc
  | .dec _ => .dec
  | .div _ _ => .div
  | .jmp _ => .jmp
  | .jeq _ => .jeq
  | .jne _ => .jne
  | .call _ => .call
  | .int _ => .int
  | .iret => .iret

/-- The opcode byte of a mnemonic, from the Encoding line of its instruction rule (R150 to R152, R162 to R168,
R180 to R183, R190, R191). -/
def Kind.opcode (p : Params) : Kind → Byte
  | .ldi => 0x99#8
  | .prn => 0x43#8
  | .hlt => 0x01#8
  | .mul => 0xAA#8
  | .add => 0xA8#8
  | .and => 0xB3#8
  | .cmp => 0xA0#8
  | .inc => 0x78#8
  | .dec => 0x79#8
  | .div => 0xAB#8
  | .jmp => p.jmpOpcode.byte
  | .jeq => 0x51#8
  | .jne => 0x52#8
  | .call => 0x48#8
  | .int => 0x4A#8
  | .iret => 0x0B#8

/-- The operand bytes of an instruction, in address order (30_encoding.md R104). -/
def Instr.operandBytes : Instr → List Byte
  | .ldi a imm => [a, imm]
  | .mul a b | .add a b | .and a b | .cmp a b | .div a b => [a, b]
  | .prn a | .inc a | .dec a | .jmp a | .jeq a | .jne a | .call a | .int a => [a]
  | .hlt | .iret => []

/-- The bytes of an instruction at ascending addresses (20_memory.md R77). -/
def encode (p : Params) (i : Instr) : List Byte :=
  i.kind.opcode p :: i.operandBytes

/-- The instruction length the PC advance uses: the length field of its opcode (30_encoding.md R100). DEDUCED, log 31;
safe. -/
def Instr.len (p : Params) (i : Instr) : Nat :=
  lengthOf (i.kind.opcode p)

end Sys2Proof
end

