-- ==== Sys2Proof/Machine/State.lean ====
section
/-! DEFINITION. The architectural state (10_state.md R20), the errors that end a run, and the machine after
reset (70_reset_and_hazards.md R240). -/

namespace Sys2Proof.Machine

/-- The register file: eight 8-bit registers, none hardwired, no banks (10_state.md R21, R23). -/
structure RegFile where
  r0 : Byte
  r1 : Byte
  r2 : Byte
  r3 : Byte
  r4 : Byte
  /-- IM, the interrupt mask (10_state.md R47). -/
  r5 : Byte
  /-- IS, the interrupt status (10_state.md R48). -/
  r6 : Byte
  /-- SP, the stack pointer (10_state.md R46). -/
  r7 : Byte
  deriving DecidableEq, Repr

/-- FL: three single-bit flags (10_state.md R34). -/
structure Flags where
  /-- Equal. -/
  e : Bool
  /-- Greater-than. -/
  g : Bool
  /-- Less-than. -/
  l : Bool
  deriving DecidableEq, Repr

/-- Memory: the cells that do not hold 0, addresses strictly rising. An unlisted cell holds 0, the
zero-initialised contents (20_memory.md R70, R71). The form is the model's: DESIGN CHOICE, log 28; safe. -/
abbrev Memory := List Host.Cell

/-- The run status (10_state.md R51). -/
inductive Status where
  | idle | running | halted
  deriving DecidableEq, Repr

/-- A fatal error with its information (00_scope.md R17; 60_exceptions.md R201 to R205). -/
inductive FatalError where
  /-- An access at or above `MEM_SIZE` (R201). -/
  | memoryOutOfRange (addr : Nat)
  /-- A fetched byte that is no instruction (R202). -/
  | unknownOpcode (ir : Byte)
  /-- DIV by a register that holds 0 (R203). -/
  | divisionByZero
  /-- A register-index operand of 8 or more (R204). -/
  | badRegisterIndex (i : Byte)
  /-- INT of a register that holds 8 or more (R205). -/
  | badInterruptNumber (n : Byte)
  deriving DecidableEq, Repr

/-- The five error kinds (60_exceptions.md R200). -/
inductive ErrorCode where
  | memoryOutOfRange | unknownOpcode | divisionByZero | badRegisterIndex | badInterruptNumber
  deriving DecidableEq, Repr

/-- The error record `(code, pc, detail)` (60_exceptions.md R200). -/
structure ErrorRecord where
  code : ErrorCode
  /-- The PC at the start of the tick that raised the error. -/
  pc : Nat
  /-- The raise's argument, or none. -/
  detail : Option Nat
  deriving DecidableEq, Repr

/-- The architectural state (10_state.md R20), and the parameters of the implementation. The tick-local names of
10_state.md R50 (IR, opA, opB, len, pc0, pcSet) do not persist and are not here. -/
structure State where
  /-- The MODEL's own field: the implementation's parameters, which no step changes (00_scope.md section 3).
  DESIGN CHOICE (that the state carries them), log 5; safe. -/
  params : Params
  /-- `x[0]` to `x[7]` (10_state.md R21). -/
  regs : RegFile
  /-- `PC`, a natural number that is never reduced (10_state.md R28, R32). UNVERIFIED, log 8; safe. -/
  pc : Nat
  /-- `FL` (10_state.md R34). -/
  fl : Flags
  /-- `IE`, the hidden interrupts-enabled bit (10_state.md R49); unused with `INTERRUPTS = absent` (log 17). -/
  ie : Bool
  /-- `Mem` (20_memory.md R70). -/
  mem : Memory
  /-- `status` (10_state.md R51). -/
  status : Status
  /-- `err` (10_state.md R52). -/
  err : Option ErrorRecord
  /-- `out`, the output trace, oldest first (10_state.md R55). -/
  out : List Byte
  deriving DecidableEq, Repr

/-- What a handler leaves behind (40_cycle.md R135, R136): the state it made, and the tick-local `pcSet`, which
says whether it set the PC. -/
structure Handled where
  state : State
  pcSet : Bool
  deriving DecidableEq, Repr

/-- The bytes a tick fetches (40_cycle.md R142). -/
structure Fetched where
  ir : Byte
  opA : Byte
  opB : Byte
  deriving DecidableEq, Repr

/-- Reasons a step could stop with a fault: there are NONE. The spec gives every error an effect (status Halted and
an error record, 40_cycle.md R140; "the only ways a run stops are HLT and rules R201 to R205", 60_exceptions.md
R207), so each is a next state. DEDUCED, log 1; safe. -/
inductive Fault where
  deriving DecidableEq, Repr

/-- Reasons an instruction has no meaning. -/
inductive Refusal where
  /-- Raised by an arm of `exec` whose instruction has no meaning yet; no arm does so now. Safe: it stops where the
  hardware goes on. -/
  | notModelled (mnemonic : String)
  deriving DecidableEq, Repr

/-- The register file after reset (10_state.md R27). -/
def RegFile.reset : RegFile := ⟨0, 0, 0, 0, 0, 0, 0, spInit⟩

/-- The machine right after reset, constructed for the parameters `p` (70_reset_and_hazards.md R240), which must be
within the bounds of 00_scope.md R7: there is no reset machine for others. FL and IE by the spec's own
decisions: UNVERIFIED, log 13 and 17; unsafe. -/
def State.resetWith (p : Params) (_legal : p.legal) : State where
  params := p
  regs := RegFile.reset
  pc := 0
  fl := ⟨false, false, false⟩
  ie := true
  mem := []
  status := .idle
  err := none
  out := []

/-- The machine right after reset, in the reference configuration. -/
def State.reset : State := State.resetWith Params.reference Params.reference_legal

end Sys2Proof.Machine
end

