-- ==== Sys2Proof/Machine/Flags.lean ====
section
/-! DEFINITION. The flags_register unit (10_state.md section 4): the flags CMP computes, and FL's byte image. -/

namespace Sys2Proof.Machine

/-- The flags CMP writes: three unsigned comparisons of the register values (42_alu.md R165). -/
def Flags.compare (va vb : Byte) : Flags where
  e := va.toNat == vb.toNat
  g := decide (vb.toNat < va.toNat)
  l := decide (va.toNat < vb.toNat)

/-- `fl_byte`: bit 0 is E, bit 1 is G, bit 2 is L, bits 7:3 are 0 (10_state.md R38). UNVERIFIED, log 14; unsafe. -/
def Flags.toByte (f : Flags) : Byte :=
  ((BitVec.ofBool f.l).setWidth 8 <<< 2) ||| ((BitVec.ofBool f.g).setWidth 8 <<< 1) ||| (BitVec.ofBool f.e).setWidth 8

/-- FL loaded from a byte: bits 0, 1 and 2; bits 7:3 are ignored (10_state.md R38). UNVERIFIED, log 14; unsafe. -/
def Flags.ofByte (b : Byte) : Flags where
  e := b.getLsbD 0
  g := b.getLsbD 1
  l := b.getLsbD 2

end Sys2Proof.Machine
end

