-- ==== Sys2Proof/Machine/Operands.lean ====
section
/-! DEFINITION. The operand forms (30_encoding.md section 3). A register operand is a whole byte, checked before
use; the immediate of LDI is its byte unchanged (R106), and there is no other form (R108). -/

namespace Sys2Proof

/-- The register a byte names, if it names one (30_encoding.md R107). -/
def Reg.ofByte (i : Byte) : Option Reg :=
  match i.toNat with
  | 0 => some .r0
  | 1 => some .r1
  | 2 => some .r2
  | 3 => some .r3
  | 4 => some .r4
  | 5 => some .r5
  | 6 => some .r6
  | 7 => some .r7
  | _ => none

/-- The operand byte that names a register (30_encoding.md R107). -/
def Reg.index : Reg → Byte
  | .r0 => 0
  | .r1 => 1
  | .r2 => 2
  | .r3 => 3
  | .r4 => 4
  | .r5 => 5
  | .r6 => 6
  | .r7 => 7

end Sys2Proof

namespace Sys2Proof.Machine

/-- `check_reg(i)` (10_state.md R24). UNVERIFIED, log 9; safe. -/
def checkReg (i : Byte) : Except FatalError Reg :=
  match Reg.ofByte i with
  | some r => .ok r
  | none => .error (.badRegisterIndex i)

end Sys2Proof.Machine
end

