-- ==== Sys2Proof/Machine/Ops.lean ====
section
/-! DEFINITION. The named operations: memory, register file, stack, output, the fetch, the commit of a handler with
its PC advance, the fatal error, interrupt entry and the return from it. -/

namespace Sys2Proof.Machine

/-! ## Memory -/

/-- The byte at an address; an unlisted address holds 0 (20_memory.md R71). -/
def Memory.peek : Memory → Nat → Byte
  | [], _ => 0
  | (b, w) :: m, a => if a = b then w else Memory.peek m a

/-- The cell list with the cell at `a` holding a value that is not 0. -/
def Memory.insertCell : Memory → Nat → Byte → Memory
  | [], a, v => [(a, v)]
  | (b, w) :: m, a, v =>
    if a < b then (a, v) :: (b, w) :: m
    else if a = b then (a, v) :: m
    else (b, w) :: Memory.insertCell m a v

/-- The memory with `v` stored at `a`: storing 0 removes the cell, so that equal memories are equal lists. -/
def Memory.poke (m : Memory) (a : Nat) (v : Byte) : Memory :=
  if v = 0 then m.filter (fun c => c.1 != a) else m.insertCell a v

/-- The canonical form of a memory of `capacity` cells: addresses strictly rising and below the capacity, and no
cell that holds 0. -/
def Memory.wf (capacity : Nat) : Memory → Bool
  | [] => true
  | (a, v) :: m =>
    decide (a < capacity) && v != 0 && m.all (fun c => decide (a < c.1)) && Memory.wf capacity m

/-- The byte the state's memory holds at `a`. -/
def State.byteAt (s : State) (a : Nat) : Byte :=
  s.mem.peek a

/-- `MemRead(a, 1)` (20_memory.md R72). -/
def State.memRead (s : State) (a : Nat) : Except FatalError Byte :=
  if s.params.memSize ≤ a then .error (.memoryOutOfRange a) else .ok (s.byteAt a)

/-- `MemWrite(a, 1, v)`, storing `v mod 256` (20_memory.md R73). -/
def State.memWrite (s : State) (a v : Nat) : Except FatalError State :=
  if s.params.memSize ≤ a then .error (.memoryOutOfRange a)
  else .ok { s with mem := s.mem.poke a (BitVec.ofNat 8 v) }

/-! ## Register file -/

/-- A register's value in the file. -/
def RegFile.get (f : RegFile) : Reg → Byte
  | .r0 => f.r0
  | .r1 => f.r1
  | .r2 => f.r2
  | .r3 => f.r3
  | .r4 => f.r4
  | .r5 => f.r5
  | .r6 => f.r6
  | .r7 => f.r7

/-- The file with one register holding `v`. -/
def RegFile.set (f : RegFile) (r : Reg) (v : Byte) : RegFile :=
  match r with
  | .r0 => { f with r0 := v }
  | .r1 => { f with r1 := v }
  | .r2 => { f with r2 := v }
  | .r3 => { f with r3 := v }
  | .r4 => { f with r4 := v }
  | .r5 => { f with r5 := v }
  | .r6 => { f with r6 := v }
  | .r7 => { f with r7 := v }

/-- `x[r]` (00_scope.md R16). -/
def State.x (s : State) (r : Reg) : Byte :=
  s.regs.get r

/-- `x[r] <- v` (00_scope.md R16). -/
def State.setX (s : State) (r : Reg) (v : Byte) : State :=
  { s with regs := s.regs.set r v }

/-! ## Stack -/

/-- The address a push writes: the decremented SP, modulo 256 (10_state.md R41, R44). -/
def State.pushAddr (s : State) : Nat :=
  (s.x .sp - 1).toNat

/-- `push(v)` (10_state.md R41). -/
def State.push (s : State) (v : Nat) : Except FatalError State :=
  (s.setX .sp (s.x .sp - 1)).memWrite s.pushAddr v

/-- `push(x[r])`. -/
def State.pushReg (s : State) (r : Reg) : Except FatalError State :=
  s.push (s.x r).toNat

/-- `pop()`: the byte at SP, then SP incremented modulo 256 (10_state.md R42). UNVERIFIED, log 11; unsafe. -/
def State.pop (s : State) : Except FatalError (Byte × State) := do
  let v ← s.memRead (s.x .sp).toNat
  pure (v, s.setX .sp (s.x .sp + 1))

/-- `x[r] <- pop()`. -/
def State.popReg (s : State) (r : Reg) : Except FatalError State := do
  let (v, s) ← s.pop
  pure (s.setX r v)

/-! ## Output -/

/-- `emit(v)` (10_state.md R57). -/
def State.emit (s : State) (v : Byte) : State :=
  { s with out := s.out ++ [v] }

/-! ## Fatal errors -/

/-- The number of an error kind (60_exceptions.md R201 to R205). UNVERIFIED, log 22; safe. -/
def ErrorCode.number : ErrorCode → Nat
  | .memoryOutOfRange => 1
  | .unknownOpcode => 2
  | .divisionByZero => 3
  | .badRegisterIndex => 4
  | .badInterruptNumber => 5

/-- The kind of an error (60_exceptions.md R201 to R205). -/
def FatalError.code : FatalError → ErrorCode
  | .memoryOutOfRange _ => .memoryOutOfRange
  | .unknownOpcode _ => .unknownOpcode
  | .divisionByZero => .divisionByZero
  | .badRegisterIndex _ => .badRegisterIndex
  | .badInterruptNumber _ => .badInterruptNumber

/-- The detail of an error (60_exceptions.md R201 to R205). -/
def FatalError.detail : FatalError → Option Nat
  | .memoryOutOfRange addr => some addr
  | .unknownOpcode ir => some ir.toNat
  | .divisionByZero => none
  | .badRegisterIndex i => some i.toNat
  | .badInterruptNumber n => some n.toNat

/-- The error record of an error raised in a tick that started at `pc` (60_exceptions.md R200). -/
def FatalError.record (e : FatalError) (pc : Nat) : ErrorRecord where
  code := e.code
  pc := pc
  detail := e.detail

/-- A raise: of the tick that started in `s` only the halt and the error record are committed (40_cycle.md R140).
UNVERIFIED for the errors of which the source does not say it, log 10; unsafe. -/
def State.raise (s : State) (e : FatalError) : State :=
  { s with status := .halted, err := some (e.record s.pc) }

/-! ## Handlers, their commit and the PC advance -/

/-- A handler's result that leaves `pcSet` false (40_cycle.md R136). -/
def State.carryOn (s : State) : Handled :=
  ⟨s, false⟩

/-- `pc <- target` as the last line of a handler: the PC is set and `pcSet` is true (00_scope.md R16). -/
def State.jump (s : State) (target : Nat) : Handled :=
  ⟨{ s with pc := target }, true⟩

/-- The step that ends in the state a sequence made, or in the raise of its error with nothing else committed
(40_cycle.md R140). -/
def State.commit (s : State) (r : Except FatalError State) : Host.Outcome State Fault Refusal :=
  match r with
  | .ok s' => .next s'
  | .error e => .next (s.raise e)

/-- Step 4: the PC advances by the instruction's length unless the handler set it (40_cycle.md R137). -/
def State.advance (s : State) (i : Instr) (h : Handled) : State :=
  if h.pcSet then h.state else { h.state with pc := s.pc + i.len s.params }

/-- Steps 3b and 4 of the tick of instruction `i` that started in `s`, for the handler result `r`
(40_cycle.md R135 to R137, R140). -/
def State.dispatch (s : State) (i : Instr) (r : Except FatalError Handled) : Host.Outcome State Fault Refusal :=
  s.commit (r.map (s.advance i))

/-- The opcodes of the interrupt option are unknown where the option is absent (30_encoding.md R114). The decoder
never gives such an instruction then; this says what its meaning is all the same. DESIGN CHOICE, log 27; safe. -/
def State.requirePresent (s : State) (i : Instr) : Except FatalError Unit :=
  if i.present s.params then .ok () else .error (.unknownOpcode (i.kind.opcode s.params))

/-! ## Fetch -/

/-- Steps 1 and 2: the opcode and both operand bytes, for every opcode (40_cycle.md R132, R133). -/
def State.fetch (s : State) : Except FatalError Fetched := do
  let ir ← s.memRead s.pc
  let opA ← s.memRead (s.pc + 1)
  let opB ← s.memRead (s.pc + 2)
  pure ⟨ir, opA, opB⟩

/-! ## Interrupts -/

/-- The eight interrupt numbers, lowest first (60_exceptions.md R210, R214). -/
def interruptNumbers : List (Fin 8) :=
  [0, 1, 2, 3, 4, 5, 6, 7]

/-- Step 0: the interrupt to take, if any: the lowest bit set in both IM and IS, while IE = 1
(60_exceptions.md R213, R214). UNVERIFIED, log 18 and 19; unsafe. -/
def State.interruptToTake (s : State) : Option (Fin 8) :=
  if s.params.interrupts && s.ie then
    interruptNumbers.find? (fun i => (s.x .im &&& s.x .is).getLsbD i.val)
  else none

/-- Interrupt entry for interrupt `i` (60_exceptions.md R215). UNVERIFIED, log 18 and 20; unsafe. -/
def State.enterInterrupt (s : State) (i : Fin 8) : Except FatalError State := do
  let s := s.setX .is (s.x .is &&& ~~~(1#8 <<< i.val))
  let s := { s with ie := false }
  let s ← s.push s.pc
  let s ← s.push s.fl.toByte.toNat
  let s ← s.pushReg .r0
  let s ← s.pushReg .r1
  let s ← s.pushReg .r2
  let s ← s.pushReg .r3
  let s ← s.pushReg .r4
  let s ← s.pushReg .r5
  let s ← s.pushReg .r6
  let target ← s.memRead (s.params.vectorBase + i.val)
  pure { s with pc := target.toNat }

/-- The return from an interrupt, IRET's pops in order (44_interrupt.md R191). -/
def State.returnFromInterrupt (s : State) : Except FatalError Handled := do
  let s ← s.popReg .r6
  let s ← s.popReg .r5
  let s ← s.popReg .r4
  let s ← s.popReg .r3
  let s ← s.popReg .r2
  let s ← s.popReg .r1
  let s ← s.popReg .r0
  let (f, s) ← s.pop
  let s := { s with fl := Flags.ofByte f }
  let (target, s) ← s.pop
  pure ({ s with ie := true }.jump target.toNat)

end Sys2Proof.Machine
end

