-- ==== Sys2Proof/Machine/Alu.lean ====
section
/-! DEFINITION. The alu unit (42_alu.md section 1) and the ALU instructions (section 2): MUL, ADD, AND, CMP, INC,
DEC, DIV. -/

namespace Sys2Proof.Machine

/-- The operations of the alu unit (42_alu.md R160). -/
inductive AluOp where
  | mul | add | and | cmp | inc | dec | div
  deriving DecidableEq, Repr

/-- The outputs of the alu unit: a result byte (none for CMP), and the flags (CMP only) (42_alu.md R160). -/
structure AluOut where
  result : Option Byte
  flags : Option Flags
  deriving DecidableEq, Repr

/-- `alu(op, va, vb)` on register values (42_alu.md R160, R161): results wrap modulo 256; DIV by 0 raises. -/
def alu (op : AluOp) (va vb : Byte) : Except FatalError AluOut :=
  match op with
  | .mul => .ok ⟨some (va * vb), none⟩
  | .add => .ok ⟨some (va + vb), none⟩
  | .and => .ok ⟨some (va &&& vb), none⟩
  | .cmp => .ok ⟨none, some (Flags.compare va vb)⟩
  | .inc => .ok ⟨some (va + 1), none⟩
  | .dec => .ok ⟨some (va - 1), none⟩
  | .div => if vb = 0 then .error .divisionByZero else .ok ⟨some (va / vb), none⟩

/-- The alu outputs written: the result to `x[r]`, the flags to FL. -/
def State.writeAlu (s : State) (r : Reg) (o : AluOut) : State :=
  let s := match o.result with
    | some v => s.setX r v
    | none => s
  match o.flags with
  | some f => { s with fl := f }
  | none => s

/-- The handler of a two-register ALU instruction: both indices checked, A before B (10_state.md R24). -/
def State.aluTwo (s : State) (op : AluOp) (a b : Byte) : Except FatalError Handled := do
  let ra ← checkReg a
  let rb ← checkReg b
  let o ← alu op (s.x ra) (s.x rb)
  pure (s.writeAlu ra o).carryOn

/-- The handler of a one-register ALU instruction; the unit does not use `vb`. -/
def State.aluOne (s : State) (op : AluOp) (a : Byte) : Except FatalError Handled := do
  let ra ← checkReg a
  let o ← alu op (s.x ra) 0
  pure (s.writeAlu ra o).carryOn

/-- MUL (42_alu.md R162). -/
def execMul (a b : Byte) (s : State) : Host.Outcome State Fault Refusal :=
  s.dispatch (.mul a b) (s.aluTwo .mul a b)

/-- ADD (42_alu.md R163). -/
def execAdd (a b : Byte) (s : State) : Host.Outcome State Fault Refusal :=
  s.dispatch (.add a b) (s.aluTwo .add a b)

/-- AND (42_alu.md R164). -/
def execAnd (a b : Byte) (s : State) : Host.Outcome State Fault Refusal :=
  s.dispatch (.and a b) (s.aluTwo .and a b)

/-- CMP (42_alu.md R165). -/
def execCmp (a b : Byte) (s : State) : Host.Outcome State Fault Refusal :=
  s.dispatch (.cmp a b) (s.aluTwo .cmp a b)

/-- INC (42_alu.md R166). -/
def execInc (a : Byte) (s : State) : Host.Outcome State Fault Refusal :=
  s.dispatch (.inc a) (s.aluOne .inc a)

/-- DEC (42_alu.md R167). -/
def execDec (a : Byte) (s : State) : Host.Outcome State Fault Refusal :=
  s.dispatch (.dec a) (s.aluOne .dec a)

/-- DIV (42_alu.md R168). -/
def execDiv (a b : Byte) (s : State) : Host.Outcome State Fault Refusal :=
  s.dispatch (.div a b) (s.aluTwo .div a b)

end Sys2Proof.Machine
end

