-- ==== Sys2Proof/Machine/Basic.lean ====
section
/-! DEFINITION. LDI, PRN and HLT (41_basic.md). -/

namespace Sys2Proof.Machine

/-- LDI: the immediate byte unchanged (41_basic.md R150, 30_encoding.md R106). -/
def execLdi (a imm : Byte) (s : State) : Host.Outcome State Fault Refusal :=
  s.dispatch (.ldi a imm) do
    let ra ← checkReg a
    pure (s.setX ra imm).carryOn

/-- PRN (41_basic.md R151). -/
def execPrn (a : Byte) (s : State) : Host.Outcome State Fault Refusal :=
  s.dispatch (.prn a) do
    let ra ← checkReg a
    pure (s.emit (s.x ra)).carryOn

/-- HLT: `status <- Halted; err <- none`, the PC kept when `HLT_ADVANCES_PC = false` (41_basic.md R152,
40_cycle.md R138). The parameter's default is UNVERIFIED, log 7; unsafe for a claim about the final PC. -/
def execHlt (s : State) : Host.Outcome State Fault Refusal :=
  let h := { s with status := .halted, err := none }
  s.dispatch .hlt (.ok (if s.params.hltAdvancesPc then h.carryOn else h.jump s.pc))

end Sys2Proof.Machine
end

