-- ==== Sys2Proof/Machine/Control.lean ====
section
/-! DEFINITION. JMP, JEQ, JNE and CALL (43_control.md). A target is the whole value of a register (R184). -/

namespace Sys2Proof.Machine

/-- `pc <- x[a]` when `taken`; the operand is checked either way (10_state.md R24). -/
def State.branch (s : State) (taken : Bool) (a : Byte) : Except FatalError Handled := do
  let ra ← checkReg a
  pure (if taken then s.jump (s.x ra).toNat else s.carryOn)

/-- JMP (43_control.md R180). -/
def execJmp (a : Byte) (s : State) : Host.Outcome State Fault Refusal :=
  s.dispatch (.jmp a) (s.branch true a)

/-- JEQ (43_control.md R181). -/
def execJeq (a : Byte) (s : State) : Host.Outcome State Fault Refusal :=
  s.dispatch (.jeq a) (s.branch s.fl.e a)

/-- JNE (43_control.md R182). -/
def execJne (a : Byte) (s : State) : Host.Outcome State Fault Refusal :=
  s.dispatch (.jne a) (s.branch (!s.fl.e) a)

/-- CALL: the return address is pushed, then the target register is read (43_control.md R183). The order of read and
push is UNVERIFIED, log 12; unsafe for CALL R7. -/
def execCall (a : Byte) (s : State) : Host.Outcome State Fault Refusal :=
  s.dispatch (.call a) do
    let ra ← checkReg a
    let s' ← s.push (s.pc + 2)
    pure (s'.jump (s'.x ra).toNat)

end Sys2Proof.Machine
end

