-- ==== Sys2Proof/Machine/Interrupt.lean ====
section
/-! DEFINITION. INT and IRET (44_interrupt.md), which exist with `INTERRUPTS = present`. -/

namespace Sys2Proof.Machine

/-- INT: `x[6] <- x[6] | (1 << n)` (44_interrupt.md R190). UNVERIFIED, log 16; unsafe. -/
def execInt (a : Byte) (s : State) : Host.Outcome State Fault Refusal :=
  s.dispatch (.int a) do
    s.requirePresent (.int a)
    let ra ← checkReg a
    let n := s.x ra
    if 8 ≤ n.toNat then .error (.badInterruptNumber n)
    else pure (s.setX .is (s.x .is ||| (1#8 <<< n.toNat))).carryOn

/-- IRET (44_interrupt.md R191). -/
def execIret (s : State) : Host.Outcome State Fault Refusal :=
  s.dispatch .iret do
    s.requirePresent .iret
    s.returnFromInterrupt

end Sys2Proof.Machine
end

