-- ==== Sys2Proof/Machine/HostPort.lean ====
section
/-! DEFINITION. What the host does to the CORE's state and sees of it (70_reset_and_hazards.md section 2): load,
start, the printed lines. Text parsing, the command line and exit codes are outside (00_scope.md R5). -/

namespace Sys2Proof.Machine

/-- The image values written at addresses `k`, `k + 1`, ..., each by the memory write contract
(70_reset_and_hazards.md R242). -/
def State.loadFrom (s : State) (k : Nat) : List Nat → Except FatalError State
  | [] => .ok s
  | v :: image => do
    let s ← s.memWrite k v
    s.loadFrom (k + 1) image

/-- The load of a program image, while Idle only (70_reset_and_hazards.md R242, 20_memory.md R90). None: the load
fails, and no run starts from it. UNVERIFIED, log 25; safe. -/
def State.load (s : State) (image : List Nat) : Option State :=
  match s.status with
  | .idle => (s.loadFrom 0 image).toOption
  | .running | .halted => none

/-- The host's start of the run loop (70_reset_and_hazards.md R243). -/
def State.start (s : State) : State :=
  { s with status := .running }

/-- The lines the host has printed: each emitted byte in decimal (70_reset_and_hazards.md R246). DEDUCED, log 29;
safe. -/
def State.printed (s : State) : List String :=
  s.out.map (fun b => Nat.repr b.toNat)

end Sys2Proof.Machine
end

