-- ==== Sys2Proof/Machine/Tick.lean ====
section
/-! DEFINITION. The tick (40_cycle.md R131) and the run state machine around it (R130). -/

namespace Sys2Proof.Machine

/-- Steps 1 to 4: fetch, operand fetch, decode, dispatch, PC advance (40_cycle.md R132 to R137), the errors in this
order (R141; UNVERIFIED, log 24; unsafe). -/
def State.runInstruction (s : State) : Host.Outcome State Fault Refusal :=
  match s.fetch with
  | .error e => .next (s.raise e)
  | .ok f =>
    match decodeFetched s.params f.ir f.opA f.opB with
    | none => .next (s.raise (.unknownOpcode f.ir))
    | some i => exec i s

/-- One tick: the interrupt check; then interrupt entry, which ends the tick, or the instruction
(40_cycle.md R131, 60_exceptions.md R213). -/
def State.tick (s : State) : Host.Outcome State Fault Refusal :=
  match s.interruptToTake with
  | some i => s.commit (s.enterInterrupt i)
  | none => s.runInstruction

/-- One step of the run state machine (40_cycle.md R130). Idle: the host's start, the one event that leaves Idle
(DESIGN CHOICE, log 2; unsafe). Running: a tick. Halted: no tick runs and no state changes (10_state.md R54;
DEDUCED, log 3; safe). -/
def State.cycle (s : State) : Host.Outcome State Fault Refusal :=
  match s.status with
  | .idle => .next s.start
  | .running => s.tick
  | .halted => .next s

/-- A state whose PC leaves room for the three fetch reads: the PC as it is where they are in range, else 0. -/
def State.fetchPc (s : State) : Nat :=
  if s.pc + 2 < s.params.memSize then s.pc else 0

/-- The state with a table word's bytes stored where the next tick fetches, and made ready for that fetch: started,
the PC moved to 0 only where no fetch at it succeeds, interrupts held off only where one would be taken first. -/
def State.placeWord (s : State) (nbits w : Nat) : State :=
  let pc := s.fetchPc
  let mem := ((s.mem.poke pc (tableByte nbits w 0)).poke (pc + 1) (tableByte nbits w 1)).poke
    (pc + 2) (tableByte nbits w 2)
  { s with
    pc := pc
    mem := mem
    status := .running
    ie := s.ie && s.interruptToTake.isNone }

end Sys2Proof.Machine
end

