-- ==== Sys2Proof/Machine/Step.lean ====
section
/-! DEFINITION. The step of the machine. -/

namespace Sys2Proof.Machine

/-- One step: the run state machine's, whose Running step is one tick (40_cycle.md R130, R131). -/
def step (s : State) : Host.Outcome State Fault Refusal :=
  s.cycle

/-- The state whose next step fetches and runs the instruction of a table word. DESIGN CHOICE, log 4; safe. -/
def State.withFetchWord (s : State) (nbits w : Nat) : State :=
  s.placeWord nbits w

end Sys2Proof.Machine
end

