-- ==== Sys2Proof/Safety.lean ====
section
/-! DEFINITION. The terms claims are stated in: the invariant of the machine, and what a failed run
is. -/

namespace Sys2Proof.Machine

/-- A run that has ended in a fatal error (10_state.md R52). -/
def State.failed (s : State) : Bool :=
  s.err.isSome

/-- What holds in every state a run reaches: the parameters are within their bounds (00_scope.md R7); memory is in
canonical form (the model's choice, log 28) within its capacity (20_memory.md R70); the PC is at most
`max(MEM_SIZE, 255)` (10_state.md R28); an error record means Halted, with the PC still where the failing tick started
(10_state.md R52, 40_cycle.md R140); an Idle machine is at its reset values but for the loaded image (10_state.md R51,
20_memory.md R90). -/
abbrev State.Inv (s : State) : Prop :=
  ∃ legal : s.params.legal,
  s.mem.wf s.params.memSize = true ∧
  s.pc ≤ max s.params.memSize 255 ∧
  (∀ r ∈ s.err, s.status = .halted ∧ r.pc = s.pc) ∧
  (s.status = .idle → s = { State.resetWith s.params legal with mem := s.mem })

end Sys2Proof.Machine
end

