-- ==== Sys2Proof/Certificates/Slice0/Obligations.lean ====
section
/-! DEFINITION. The statements for the provers. A register operand of an instruction is written `r.index`, the byte
that names register `r` (as `r` runs over the eight registers this runs over every byte below 8); the bytes of 8 or
more have clauses of their own, the Exceptions lines of the instruction rules, which rest on the index check of 10_state.md
R24 (spec decision D4, log 9). `s.raise e` is the state that a fatal error leaves (spec decision D5, log 10);
RaiseHaltsWithRecord says which state that is. -/

open Sys2Proof Sys2Proof.Machine

/-! ## Reset -/

/-- 10_state.md R27, R33, R53, R55 and 20_memory.md R71: registers, PC, status, error record, output and memory right
after reset, under any parameters within their bounds. -/
def Obligations.ResetHoldsStatedValues : Prop :=
  ∀ (p : Params) (h : p.legal),
    (∀ r : Reg, (State.resetWith p h).x r = if r = .sp then 0xF4#8 else 0) ∧
    (State.resetWith p h).pc = 0 ∧
    (State.resetWith p h).status = .idle ∧
    (State.resetWith p h).err = none ∧
    (State.resetWith p h).out = [] ∧
    (∀ a : Nat, (State.resetWith p h).byteAt a = 0)

/-- The spec's decisions D8 and D12 (92_eei_decisions.md; log 13 and 17), and the parameter defaults of
00_scope.md, which are decisions D1, D2, D10, D15 but for MEM_SIZE (log 6, 7, 15, 20): FL is clear, IE is set, IM
masks every interrupt, and `State.reset` is the machine of the reference configuration. With INTERRUPTS = absent the
spec has no IE (10_state.md R49): that the field is set there too is the model's choice, log 17, and so is that the
state carries the parameters, log 5. -/
def Obligations.ResetFlagsInterruptsAndParameters : Prop :=
  (∀ (p : Params) (h : p.legal),
    (State.resetWith p h).fl = ⟨false, false, false⟩ ∧
    (State.resetWith p h).ie = true ∧
    (State.resetWith p h).interruptToTake = none) ∧
  ∃ h : Params.legal ⟨256, true, 0xF8, true, .op50⟩,
    State.reset = State.resetWith ⟨256, true, 0xF8, true, .op50⟩ h

/-- The invariant holds at reset, under any parameters within their bounds. Its clause that memory is a list in canonical
form is about the model's choice of form, log 28, which the spec does not give. -/
def Obligations.ResetSatisfiesTheInvariant : Prop :=
  ∀ (p : Params) (h : p.legal), (State.resetWith p h).Inv

/-! ## Whole-machine rules -/

/-- Every step keeps the invariant: the parameters within the bounds of 00_scope.md R7 (spec decision D20, log 30), memory
in canonical form (the model's choice, log 28) within its capacity, the PC at most
`max(MEM_SIZE, 255)` (10_state.md R28), an error record only when Halted and with the PC of the failing tick
(R52, 40_cycle.md R140), and Idle only at the reset values (R51). -/
def Obligations.EveryStepKeepsTheInvariant : Prop :=
  ∀ s t : State, s.Inv → step s = .next t → t.Inv

/-- 40_cycle.md R144: the step is total. That an error is a next state and not a fault is the model's reading of R140
(log 1), and that a step is defined in Idle and Halted too is the model's (log 2, log 3). -/
def Obligations.EveryStepAnswersANextState : Prop :=
  ∀ s : State, ∃ t : State, step s = .next t

/-- No step changes the implementation's parameters (the model's own field, log 5). -/
def Obligations.NoStepChangesTheParameters : Prop :=
  ∀ s t : State, step s = .next t → t.params = s.params

/-- The run state machine (40_cycle.md R130, spec decision D23; that a step of an Idle machine is the host's start is
the model's choice, log 2): Idle goes to Running by the start, which changes nothing else; a tick leaves Running or
reaches Halted; Halted stays as it is. -/
def Obligations.RunStateMachine : Prop :=
  ∀ s t : State, step s = .next t →
    (s.status = .idle → t = { s with status := .running }) ∧
    (s.status = .running → t.status = .running ∨ t.status = .halted) ∧
    (s.status = .halted → t = s)

/-- Halted is terminal for any number of steps (10_state.md R54, spec decision D23). -/
def Obligations.HaltedIsTerminal : Prop :=
  ∀ (n : Nat) (s : State), s.status = .halted → Sys2Proof.core.run n s = .next s

/-- The only ways a run stops are HLT and the fatal errors (60_exceptions.md R207). -/
def Obligations.OnlyHltAndFatalErrorsHalt : Prop :=
  ∀ s t : State, s.status = .running → step s = .next t → t.status = .halted →
    (∃ e : FatalError, t = s.raise e) ∨
    (s.interruptToTake = none ∧
      ∃ f, s.fetch = .ok f ∧ decodeFetched s.params f.ir f.opA f.opB = some .hlt ∧ exec .hlt s = .next t)

/-- A tick that fails commits nothing but the halt and the error record, whose pc is the PC of the start of the
tick (40_cycle.md R140, spec decision D5; 60_exceptions.md R200, R206; log 10). -/
def Obligations.FailingTickCommitsNothingElse : Prop :=
  ∀ s t : State, s.status = .running → s.err = none → step s = .next t → t.failed = true →
    ∃ e : FatalError, t = { s with status := .halted, err := some ⟨e.code, s.pc, e.detail⟩ }

/-- The state after a raise, for each of the five errors (60_exceptions.md R200 to R205, code numbers by spec decision
D17; 40_cycle.md R140, D5). -/
def Obligations.RaiseHaltsWithRecord : Prop :=
  ∀ (s : State) (addr : Nat) (b : Byte),
    s.raise (.memoryOutOfRange addr) =
      { s with status := .halted, err := some ⟨.memoryOutOfRange, s.pc, some addr⟩ } ∧
    s.raise (.unknownOpcode b) =
      { s with status := .halted, err := some ⟨.unknownOpcode, s.pc, some b.toNat⟩ } ∧
    s.raise .divisionByZero =
      { s with status := .halted, err := some ⟨.divisionByZero, s.pc, none⟩ } ∧
    s.raise (.badRegisterIndex b) =
      { s with status := .halted, err := some ⟨.badRegisterIndex, s.pc, some b.toNat⟩ } ∧
    s.raise (.badInterruptNumber b) =
      { s with status := .halted, err := some ⟨.badInterruptNumber, s.pc, some b.toNat⟩ } ∧
    [ErrorCode.memoryOutOfRange, .unknownOpcode, .divisionByZero, .badRegisterIndex, .badInterruptNumber].map
      ErrorCode.number = [1, 2, 3, 4, 5]

/-! ## Encoding -/

/-- Decoding an encoded instruction gives it back, every operand at every value, under any parameters, with any
bytes after it. -/
def Obligations.DecodeOfEncodeIsTheInstruction : Prop :=
  ∀ (p : Params) (i : Instr) (rest : List Byte), i.present p = true →
    decode p (encode p i ++ rest) = .ok (i, rest)

/-- Each byte string decodes to at most the instruction whose encoding it begins with; and what is decoded is an
instruction the parameters have. -/
def Obligations.DecodedBytesAreTheEncoding : Prop :=
  ∀ (p : Params) (bytes rest : List Byte) (i : Instr), decode p bytes = .ok (i, rest) →
    bytes = encode p i ++ rest ∧ i.present p = true

/-- 30_encoding.md R109, the opcode map: a byte decodes to a mnemonic exactly when the table has that row and the row's
option holds (spec decision D10, log 15), and then format and length are the row's; every other byte is unknown. JMP's
byte is the parameter (00_scope.md R12, spec decision D1, log 6). -/
def Obligations.OpcodeMapIsTheTable : Prop :=
  ∀ (p : Params) (ir : Byte) (k : Kind), decodeKind p ir = some k ↔
    (ir, k, k.format, lengthOf ir) ∈
      [(0x99#8, Kind.ldi, Format.fri, 3), (0x43#8, .prn, .fr, 2), (0x01#8, .hlt, .f0, 1), (0xAA#8, .mul, .frr, 3),
       (0xA8#8, .add, .frr, 3), (0xB3#8, .and, .frr, 3), (0xA0#8, .cmp, .frr, 3), (0x78#8, .inc, .fr, 2),
       (0x79#8, .dec, .fr, 2), (0xAB#8, .div, .frr, 3), (p.jmpOpcode.byte, .jmp, .fr, 2), (0x51#8, .jeq, .fr, 2),
       (0x52#8, .jne, .fr, 2), (0x48#8, .call, .fr, 2)] ∨
    (p.interrupts = true ∧
      (ir, k, k.format, lengthOf ir) ∈ [(0x4A#8, Kind.int, Format.fr, 2), (0x0B#8, .iret, .f0, 1)])

/-- 30_encoding.md R115 (derived in the spec): 240 of the 256 bytes are unknown with interrupts present, 242 with
interrupts absent, and every byte with top bits 11 is unknown (R101). -/
def Obligations.UnknownOpcodeBytes : Prop :=
  (∀ p : Params,
    ((List.range 256).filter (fun n => (decodeKind p (BitVec.ofNat 8 n)).isNone)).length =
      if p.interrupts then 240 else 242) ∧
  (∀ (p : Params) (ir : Byte), 0xC0 ≤ ir.toNat → decodeKind p ir = none)

/-- 30_encoding.md R100: one to three bytes; the opcode's two top bits plus one are the bytes an instruction takes, and
that length is what the PC advances by, whatever the handler used. -/
def Obligations.LengthFieldGivesTheLength : Prop :=
  (∀ (p : Params) (ir : Byte) (ops rest : List Byte) (i : Instr), decode p (ir :: ops) = .ok (i, rest) →
    (ir :: ops).length = (ir.toNat / 64 + 1) + rest.length ∧ ir.toNat / 64 + 1 ≤ 3 ∧
    i.len p = ir.toNat / 64 + 1) ∧
  (∀ (s t : State) (i : Instr), (s.advance i t.carryOn).pc = s.pc + i.len s.params)

/-- Words written out from the spec's Encoding lines decode to the instructions they stand for, in the reference
configuration. -/
def Obligations.SampleWordsDecode : Prop :=
  decode Params.reference [0b10011001#8, 0b00000111#8, 0b11111111#8] = .ok (.ldi 7 255, []) ∧
  decode Params.reference [0b10101011#8, 0b00000000#8, 0b00000001#8] = .ok (.div 0 1, []) ∧
  decode Params.reference [0b01010000#8, 0b00000010#8] = .ok (.jmp 2, []) ∧
  decode Params.reference [0b01001010#8, 0b00000001#8] = .ok (.int 1, []) ∧
  decode Params.reference [0b00001011#8] = .ok (.iret, []) ∧
  decode Params.reference [0b00000000#8, 0b00000000#8, 0b00000000#8] = .error (.unknownOpcode 0)

/-- With `INTERRUPTS = absent` no interrupt is taken, INT and IRET are unknown opcodes (00_scope.md R9, 30_encoding.md
R114, spec decision D10), and their meanings raise that error (the model's choice, log 27). -/
def Obligations.AbsentInterruptsAreUnknown : Prop :=
  ∀ (s : State) (a : Byte), s.params.interrupts = false →
    s.interruptToTake = none ∧
    decodeKind s.params 0x4A#8 = none ∧
    decodeKind s.params 0x0B#8 = none ∧
    exec (.int a) s = .next (s.raise (.unknownOpcode 0x4A#8)) ∧
    exec .iret s = .next (s.raise (.unknownOpcode 0x0B#8))

/-! ## Memory, registers, stack, flags -/

/-- 20_memory.md R72, R73: a read below the capacity returns the byte; a write there stores the value modulo 256 and
changes no other byte and nothing else; at or above the capacity both fail. -/
def Obligations.MemoryPortContract : Prop :=
  ∀ (s : State) (a v : Nat),
    (a < s.params.memSize →
      s.memRead a = .ok (s.byteAt a) ∧
      ∃ t, s.memWrite a v = .ok t ∧ t = { s with mem := t.mem } ∧
        t.memRead a = .ok (BitVec.ofNat 8 v) ∧ ∀ c ≠ a, t.memRead c = s.memRead c) ∧
    (s.params.memSize ≤ a →
      s.memRead a = .error (.memoryOutOfRange a) ∧ s.memWrite a v = .error (.memoryOutOfRange a))

/-- The canonical form, the model's choice (log 28), is canonical: two memories in it that read the same at every address are the same list. -/
def Obligations.EqualReadsMeanEqualMemories : Prop :=
  ∀ (n : Nat) (m m' : Memory), m.wf n = true → m'.wf n = true → (∀ a, m.peek a = m'.peek a) → m = m'

/-- 10_state.md R21: a register write stores the value modulo 256 in that register, whichever it is, and in no
other. -/
def Obligations.RegisterWriteThenRead : Prop :=
  ∀ (s : State) (r q : Reg) (v : Nat),
    ((s.setX r (BitVec.ofNat 8 v)).x r).toNat = v % 256 ∧
    (q ≠ r → (s.setX r (BitVec.ofNat 8 v)).x q = s.x q) ∧
    s.setX r (BitVec.ofNat 8 v) = { s with regs := (s.setX r (BitVec.ofNat 8 v)).regs }

/-- 10_state.md R41: a push decrements SP modulo 256 and writes the value modulo 256 at the new SP; nothing else
changes; where that address is outside memory it fails. -/
def Obligations.PushDecrementsThenWrites : Prop :=
  ∀ (s : State) (v : Nat),
    (s.pushAddr < s.params.memSize →
      ∃ t, s.push v = .ok t ∧ (t.x .sp).toNat = ((s.x .sp).toNat + 255) % 256 ∧ (t.x .sp).toNat = s.pushAddr ∧
        t.byteAt (t.x .sp).toNat = BitVec.ofNat 8 v ∧
        (∀ a ≠ s.pushAddr, t.byteAt a = s.byteAt a) ∧ (∀ r ≠ Reg.sp, t.x r = s.x r) ∧
        t = { s with regs := t.regs, mem := t.mem }) ∧
    (s.params.memSize ≤ s.pushAddr → s.push v = .error (.memoryOutOfRange s.pushAddr))

/-- 10_state.md R42, spec decision D6 (log 11): a pop after a push gives the value modulo 256 back and restores every
register. -/
def Obligations.PopUndoesPush : Prop :=
  ∀ (s t : State) (v : Nat), s.push v = .ok t →
    t.pop = .ok (BitVec.ofNat 8 v, { s with mem := t.mem })

/-- 10_state.md R38, spec decision D9 (log 14): FL's byte image, and FL loaded from a byte. -/
def Obligations.FlagByteImage : Prop :=
  (∀ f : Flags, f.toByte.toNat = 4 * f.l.toNat + 2 * f.g.toNat + f.e.toNat ∧ Flags.ofByte f.toByte = f) ∧
  (∀ b : Byte, Flags.ofByte b = ⟨b.toNat % 2 = 1, b.toNat / 2 % 2 = 1, b.toNat / 4 % 2 = 1⟩)

/-! ## The instructions, one rule each -/

/-- 41_basic.md R150, LDI. -/
def Obligations.LoadImmediateRule : Prop :=
  (∀ (p : Params) (a imm : Byte) (rest : List Byte),
    decode p (0x99#8 :: a :: imm :: rest) = .ok (.ldi a imm, rest)) ∧
  (∀ (s : State) (r : Reg) (imm : Byte),
    exec (.ldi r.index imm) s = .next { s.setX r imm with pc := s.pc + 3 }) ∧
  (∀ (s : State) (a imm : Byte), 8 ≤ a.toNat →
    exec (.ldi a imm) s = .next (s.raise (.badRegisterIndex a)))

/-- 41_basic.md R151, PRN: the value is appended to the output and shown in decimal; no register, flag or memory cell
changes. -/
def Obligations.PrintRegisterRule : Prop :=
  (∀ (p : Params) (a : Byte) (rest : List Byte), decode p (0x43#8 :: a :: rest) = .ok (.prn a, rest)) ∧
  (∀ (s : State) (r : Reg), ∃ t, exec (.prn r.index) s = .next t ∧
    t = { s with out := s.out ++ [s.x r], pc := s.pc + 2 } ∧
    t.printed = s.printed ++ [Nat.repr (s.x r).toNat]) ∧
  (∀ (s : State) (a : Byte), 8 ≤ a.toNat → exec (.prn a) s = .next (s.raise (.badRegisterIndex a)))

/-- 41_basic.md HLT; the PC by spec decision D2 and its parameter (log 7). -/
def Obligations.HaltRule : Prop :=
  (∀ (p : Params) (rest : List Byte), decode p (0x01#8 :: rest) = .ok (.hlt, rest)) ∧
  (∀ s : State, exec .hlt s =
    .next { s with status := .halted, err := none, pc := if s.params.hltAdvancesPc then s.pc + 1 else s.pc })

/-- 42_alu.md R162, R163, R164: MUL, ADD and AND. -/
def Obligations.MulAddAndRules : Prop :=
  (∀ (p : Params) (a b : Byte) (rest : List Byte),
    decode p (0xAA#8 :: a :: b :: rest) = .ok (.mul a b, rest) ∧
    decode p (0xA8#8 :: a :: b :: rest) = .ok (.add a b, rest) ∧
    decode p (0xB3#8 :: a :: b :: rest) = .ok (.and a b, rest)) ∧
  (∀ (s : State) (ra rb : Reg),
    exec (.mul ra.index rb.index) s =
      .next { s.setX ra (BitVec.ofNat 8 ((s.x ra).toNat * (s.x rb).toNat % 256)) with pc := s.pc + 3 } ∧
    exec (.add ra.index rb.index) s =
      .next { s.setX ra (BitVec.ofNat 8 (((s.x ra).toNat + (s.x rb).toNat) % 256)) with pc := s.pc + 3 } ∧
    exec (.and ra.index rb.index) s =
      .next { s.setX ra (s.x ra &&& s.x rb) with pc := s.pc + 3 }) ∧
  (∀ (s : State) (a b : Byte), 8 ≤ a.toNat →
    exec (.mul a b) s = .next (s.raise (.badRegisterIndex a)) ∧
    exec (.add a b) s = .next (s.raise (.badRegisterIndex a)) ∧
    exec (.and a b) s = .next (s.raise (.badRegisterIndex a))) ∧
  (∀ (s : State) (ra : Reg) (b : Byte), 8 ≤ b.toNat →
    exec (.mul ra.index b) s = .next (s.raise (.badRegisterIndex b)) ∧
    exec (.add ra.index b) s = .next (s.raise (.badRegisterIndex b)) ∧
    exec (.and ra.index b) s = .next (s.raise (.badRegisterIndex b)))

/-- 42_alu.md R165, CMP: all three flags by unsigned comparison, exactly one of them set; no register written. -/
def Obligations.CompareRule : Prop :=
  (∀ (p : Params) (a b : Byte) (rest : List Byte),
    decode p (0xA0#8 :: a :: b :: rest) = .ok (.cmp a b, rest)) ∧
  (∀ (s : State) (ra rb : Reg), ∃ t, exec (.cmp ra.index rb.index) s = .next t ∧
    t = { s with
      fl := ⟨s.x ra = s.x rb, (s.x rb).toNat < (s.x ra).toNat, (s.x ra).toNat < (s.x rb).toNat⟩
      pc := s.pc + 3 } ∧
    t.fl.e.toNat + t.fl.g.toNat + t.fl.l.toNat = 1) ∧
  (∀ (s : State) (a b : Byte), 8 ≤ a.toNat → exec (.cmp a b) s = .next (s.raise (.badRegisterIndex a))) ∧
  (∀ (s : State) (ra : Reg) (b : Byte), 8 ≤ b.toNat →
    exec (.cmp ra.index b) s = .next (s.raise (.badRegisterIndex b)))

/-- 42_alu.md R166, R167: INC and DEC, and that each undoes the other on the register. -/
def Obligations.IncrementDecrementRules : Prop :=
  (∀ (p : Params) (a : Byte) (rest : List Byte),
    decode p (0x78#8 :: a :: rest) = .ok (.inc a, rest) ∧ decode p (0x79#8 :: a :: rest) = .ok (.dec a, rest)) ∧
  (∀ (s : State) (r : Reg),
    exec (.inc r.index) s =
      .next { s.setX r (BitVec.ofNat 8 (((s.x r).toNat + 1) % 256)) with pc := s.pc + 2 } ∧
    exec (.dec r.index) s =
      .next { s.setX r (BitVec.ofNat 8 (((s.x r).toNat + 255) % 256)) with pc := s.pc + 2 }) ∧
  (∀ (s t u : State) (r : Reg),
    (exec (.inc r.index) s = .next t → exec (.dec r.index) t = .next u → u.regs = s.regs) ∧
    (exec (.dec r.index) s = .next t → exec (.inc r.index) t = .next u → u.regs = s.regs)) ∧
  (∀ (s : State) (a : Byte), 8 ≤ a.toNat →
    exec (.inc a) s = .next (s.raise (.badRegisterIndex a)) ∧
    exec (.dec a) s = .next (s.raise (.badRegisterIndex a)))

/-- 42_alu.md R168, DIV: the floor of the quotient; DivisionByZero before any register changes; the index checks
first. -/
def Obligations.DivideRule : Prop :=
  (∀ (p : Params) (a b : Byte) (rest : List Byte),
    decode p (0xAB#8 :: a :: b :: rest) = .ok (.div a b, rest)) ∧
  (∀ (s : State) (ra rb : Reg),
    (s.x rb ≠ 0 → exec (.div ra.index rb.index) s =
      .next { s.setX ra (BitVec.ofNat 8 ((s.x ra).toNat / (s.x rb).toNat)) with pc := s.pc + 3 }) ∧
    (s.x rb = 0 → exec (.div ra.index rb.index) s = .next (s.raise .divisionByZero))) ∧
  (∀ (s : State) (a b : Byte), 8 ≤ a.toNat → exec (.div a b) s = .next (s.raise (.badRegisterIndex a))) ∧
  (∀ (s : State) (ra : Reg) (b : Byte), 8 ≤ b.toNat →
    exec (.div ra.index b) s = .next (s.raise (.badRegisterIndex b)))

/-- 43_control.md JMP; its opcode byte by spec decision D1 and its parameter (log 6). -/
def Obligations.JumpRule : Prop :=
  (∀ (p : Params) (a : Byte) (rest : List Byte),
    decode p (p.jmpOpcode.byte :: a :: rest) = .ok (.jmp a, rest)) ∧
  Params.reference.jmpOpcode.byte = 0x50#8 ∧
  (∀ (s : State) (r : Reg), exec (.jmp r.index) s = .next { s with pc := (s.x r).toNat }) ∧
  (∀ (s : State) (a : Byte), 8 ≤ a.toNat → exec (.jmp a) s = .next (s.raise (.badRegisterIndex a)))

/-- 43_control.md R181, R182: JEQ and JNE, which test E alone; the operand is checked taken or not. -/
def Obligations.ConditionalJumpRules : Prop :=
  (∀ (p : Params) (a : Byte) (rest : List Byte),
    decode p (0x51#8 :: a :: rest) = .ok (.jeq a, rest) ∧ decode p (0x52#8 :: a :: rest) = .ok (.jne a, rest)) ∧
  (∀ (s : State) (r : Reg),
    (s.fl.e = true →
      exec (.jeq r.index) s = .next { s with pc := (s.x r).toNat } ∧
      exec (.jne r.index) s = .next { s with pc := s.pc + 2 }) ∧
    (s.fl.e = false →
      exec (.jeq r.index) s = .next { s with pc := s.pc + 2 } ∧
      exec (.jne r.index) s = .next { s with pc := (s.x r).toNat })) ∧
  (∀ (s : State) (a : Byte), 8 ≤ a.toNat →
    exec (.jeq a) s = .next (s.raise (.badRegisterIndex a)) ∧
    exec (.jne a) s = .next (s.raise (.badRegisterIndex a)))

/-- 43_control.md CALL: the return address `pc0 + 2`, stored modulo 256, is pushed at the decremented SP, then the
target register is read (spec decision D7, log 12) and the PC set to it; nothing else changes. Where the push is
outside memory the call fails. -/
def Obligations.CallRule : Prop :=
  (∀ (p : Params) (a : Byte) (rest : List Byte), decode p (0x48#8 :: a :: rest) = .ok (.call a, rest)) ∧
  (∀ (s : State) (r : Reg), s.pushAddr < s.params.memSize →
    ∃ t, exec (.call r.index) s = .next t ∧
      t.x .sp = s.x .sp - 1 ∧ (∀ q ≠ Reg.sp, t.x q = s.x q) ∧
      t.byteAt s.pushAddr = BitVec.ofNat 8 (s.pc + 2) ∧
      (∀ a ≠ s.pushAddr, t.byteAt a = s.byteAt a) ∧
      t.pc = (if r = .sp then s.x .sp - 1 else s.x r).toNat ∧
      t = { s with regs := t.regs, mem := t.mem, pc := t.pc }) ∧
  (∀ (s : State) (r : Reg), s.params.memSize ≤ s.pushAddr →
    exec (.call r.index) s = .next (s.raise (.memoryOutOfRange s.pushAddr))) ∧
  (∀ (s : State) (a : Byte), 8 ≤ a.toNat → exec (.call a) s = .next (s.raise (.badRegisterIndex a)))

/-- 44_interrupt.md INT, spec decision D11 (log 16): bit n of IS is set and no other bit changes; a number of 8 or more
is an error. -/
def Obligations.RaiseInterruptRule : Prop :=
  (∀ (p : Params) (a : Byte) (rest : List Byte), p.interrupts = true →
    decode p (0x4A#8 :: a :: rest) = .ok (.int a, rest)) ∧
  (∀ (s : State) (r : Reg), s.params.interrupts = true → (s.x r).toNat < 8 →
    ∃ v : Byte, exec (.int r.index) s = .next { s.setX .is v with pc := s.pc + 2 } ∧
      ∀ j < 8, v.getLsbD j = ((s.x .is).getLsbD j || decide (j = (s.x r).toNat))) ∧
  (∀ (s : State) (r : Reg), s.params.interrupts = true → 8 ≤ (s.x r).toNat →
    exec (.int r.index) s = .next (s.raise (.badInterruptNumber (s.x r)))) ∧
  (∀ (s : State) (a : Byte), s.params.interrupts = true → 8 ≤ a.toNat →
    exec (.int a) s = .next (s.raise (.badRegisterIndex a)))

/-- 44_interrupt.md IRET (pop by spec decision D6, FL's bits by D9; log 11 and 14): R6 down to R0, FL and PC from the
nine bytes at SP and above, addresses modulo 256; SP ends 9 higher; IE is set; memory, output and status stay. -/
def Obligations.InterruptReturnRule : Prop :=
  (∀ (p : Params) (rest : List Byte), p.interrupts = true → decode p (0x0B#8 :: rest) = .ok (.iret, rest)) ∧
  (∀ s : State, s.params.interrupts = true →
    (∀ k < 9, (s.x .sp + BitVec.ofNat 8 k).toNat < s.params.memSize) →
    let popped := fun k => s.byteAt (((s.x .sp).toNat + k) % 256)
    exec .iret s = .next { s with
      regs := { r6 := popped 0, r5 := popped 1, r4 := popped 2, r3 := popped 3, r2 := popped 4, r1 := popped 5,
                r0 := popped 6, r7 := BitVec.ofNat 8 ((s.x .sp).toNat + 9) }
      fl := ⟨(popped 7).getLsbD 0, (popped 7).getLsbD 1, (popped 7).getLsbD 2⟩
      pc := (popped 8).toNat
      ie := true })

/-- 44_interrupt.md IRET, Exceptions (spec decisions D5, D6): the first pop outside memory is the error, and nothing is
committed. -/
def Obligations.InterruptReturnOutOfRange : Prop :=
  ∀ (s : State) (k : Nat), s.params.interrupts = true → k < 9 →
    (∀ j < k, (s.x .sp + BitVec.ofNat 8 j).toNat < s.params.memSize) →
    s.params.memSize ≤ (s.x .sp + BitVec.ofNat 8 k).toNat →
    exec .iret s = .next (s.raise (.memoryOutOfRange (s.x .sp + BitVec.ofNat 8 k).toNat))

/-- 10_state.md R24 and 60_exceptions.md R204, spec decision D4 (log 9), over all instructions: the first register
operand of 8 or more is the error, before anything is read or written. -/
def Obligations.FirstBadRegisterIndexIsRaised : Prop :=
  ∀ (s : State) (i : Instr) (b : Byte), i.present s.params = true →
    i.regOperands.find? (fun a => decide (8 ≤ a.toNat)) = some b →
    exec i s = .next (s.raise (.badRegisterIndex b))

/-! ## Frames -/

/-- The registers an instruction may change are its destination operand (LDI, MUL, ADD, AND, DIV, INC, DEC), SP for
CALL, IS for INT and all of them for IRET; PRN, HLT, CMP, JMP, JEQ and JNE change none (10_state.md R25). -/
def Obligations.RegisterFrame : Prop :=
  ∀ (s t : State) (i : Instr) (r : Reg), exec i s = .next t →
    match i with
    | .ldi a _ | .mul a _ | .add a _ | .and a _ | .div a _ | .inc a | .dec a => r.index ≠ a → t.x r = s.x r
    | .call _ => r ≠ .sp → t.x r = s.x r
    | .int _ => r ≠ .is → t.x r = s.x r
    | .iret => True
    | .prn _ | .hlt | .cmp _ _ | .jmp _ | .jeq _ | .jne _ => t.regs = s.regs

/-- CALL changes no byte but the one at the address its push computes; every other instruction changes no byte
(20_memory.md R76). -/
def Obligations.MemoryFrame : Prop :=
  ∀ (s t : State) (i : Instr), exec i s = .next t →
    (∀ r : Byte, i = .call r → ∀ a, s.pushAddr = a → ∀ c ≠ a, t.byteAt c = s.byteAt c) ∧
    ((∀ r : Byte, i ≠ .call r) → ∀ c, t.byteAt c = s.byteAt c)

/-- What an instruction leaves of the state that is neither register, flag, memory nor PC: IE but for IRET, the
output but for PRN, the status and the error record but for HLT and a raise. -/
def Obligations.ControlStateFrame : Prop :=
  ∀ (s t : State) (i : Instr), exec i s = .next t →
    (i ≠ .iret → t.ie = s.ie) ∧
    ((∀ a, i ≠ .prn a) → t.out = s.out) ∧
    (i ≠ .hlt → (t.status = s.status ∧ t.err = s.err) ∨ ∃ e, t = s.raise e)

/-- 10_state.md R35: CMP writes all three flags, IRET restores all three from the stack; no other instruction, no
interrupt entry and no error changes FL. -/
def Obligations.OnlyCompareAndReturnWriteFlags : Prop :=
  (∀ s t : State, step s = .next t → t.fl ≠ s.fl →
    ∃ f i, s.fetch = .ok f ∧ decodeFetched s.params f.ir f.opA f.opB = some i ∧
      ((∃ a b, i = .cmp a b) ∨ i = .iret)) ∧
  (∀ (s t : State) (ra rb : Reg), exec (.cmp ra.index rb.index) s = .next t →
    t.fl.e = decide (s.x ra = s.x rb) ∧ t.fl.g = decide ((s.x rb).toNat < (s.x ra).toNat) ∧
    t.fl.l = decide ((s.x ra).toNat < (s.x rb).toNat)) ∧
  (∀ s t : State, exec .iret s = .next t → (∀ e, t ≠ s.raise e) →
    t.fl.e = (s.byteAt (s.x .sp + 7).toNat).getLsbD 0 ∧ t.fl.g = (s.byteAt (s.x .sp + 7).toNat).getLsbD 1 ∧
    t.fl.l = (s.byteAt (s.x .sp + 7).toNat).getLsbD 2)

/-- 10_state.md R55: the output is empty at reset; a tick that runs PRN appends one byte, the register's; nothing
removes one and no other step changes it. -/
def Obligations.OnlyPrintExtendsTheOutput : Prop :=
  State.reset.out = [] ∧
  (∀ (s : State) (r : Reg), ∃ t, exec (.prn r.index) s = .next t ∧ t.out = s.out ++ [s.x r]) ∧
  (∀ s t : State, step s = .next t → t.out = s.out ∨
    ∃ f r, s.fetch = .ok f ∧ decodeFetched s.params f.ir f.opA f.opB = some (.prn r) ∧
      ∃ q : Reg, q.index = r ∧ t.out = s.out ++ [s.x q])

/-- The PC of an instruction that does not set it, when no error is raised (40_cycle.md R139, derived in the spec). -/
def Obligations.ProgramCounterAdvance : Prop :=
  ∀ (s t : State) (i : Instr), exec i s = .next t → (∀ e, t ≠ s.raise e) →
    (i.kind ∈ [Kind.ldi, .mul, .add, .and, .cmp, .div] → t.pc = s.pc + 3) ∧
    (i.kind ∈ [Kind.prn, .inc, .dec, .int] → t.pc = s.pc + 2) ∧
    (i.kind = .jeq → s.fl.e = false → t.pc = s.pc + 2) ∧
    (i.kind = .jne → s.fl.e = true → t.pc = s.pc + 2) ∧
    (i.kind = .hlt → s.params.hltAdvancesPc = true → t.pc = s.pc + 1)

/-! ## The tick -/

/-- A step of a Running machine that takes no interrupt runs the instruction that the three bytes at the PC decode
to (40_cycle.md R132 to R135); `exec` holds the PC advance. -/
def Obligations.StepRunsTheDecodedInstruction : Prop :=
  ∀ (s : State) (i : Instr), s.status = .running → s.interruptToTake = none → s.pc + 2 < s.params.memSize →
    decodeFetched s.params (s.byteAt s.pc) (s.byteAt (s.pc + 1)) (s.byteAt (s.pc + 2)) = some i →
    step s = exec i s

/-- The three bytes a tick fetches decode as the byte string they are. -/
def Obligations.FetchedBytesDecodeAsAString : Prop :=
  ∀ (p : Params) (ir a b : Byte) (i : Instr),
    decodeFetched p ir a b = some i ↔ ∃ rest, decode p [ir, a, b] = .ok (i, rest)

/-- 40_cycle.md R132, R133, R134: the fetch at the PC, the two operand fetches whatever the opcode, then the unknown
opcode: the first that fails is the error of the tick, so even HLT at one of the last two addresses fails; where none
fails the tick has the three bytes. -/
def Obligations.FetchErrorsInOrder : Prop :=
  ∀ s : State, s.status = .running → s.interruptToTake = none →
    (s.pc + 2 < s.params.memSize → s.fetch = .ok ⟨s.byteAt s.pc, s.byteAt (s.pc + 1), s.byteAt (s.pc + 2)⟩) ∧
    (s.params.memSize ≤ s.pc → step s = .next (s.raise (.memoryOutOfRange s.pc))) ∧
    (s.pc < s.params.memSize → s.params.memSize ≤ s.pc + 1 →
      step s = .next (s.raise (.memoryOutOfRange (s.pc + 1)))) ∧
    (s.pc + 1 < s.params.memSize → s.params.memSize ≤ s.pc + 2 →
      step s = .next (s.raise (.memoryOutOfRange (s.pc + 2)))) ∧
    (s.pc + 2 < s.params.memSize → decodeKind s.params (s.byteAt s.pc) = none →
      step s = .next (s.raise (.unknownOpcode (s.byteAt s.pc))))

/-- A write into code is seen by the next fetch (20_memory.md R87, derived in the spec): CALL R7 jumps to the address
of the byte it has just pushed, and that byte is the next opcode (43_control.md CALL, spec decision D7). -/
def Obligations.CallThroughStackPointerFetchesThePushedByte : Prop :=
  ∀ s t : State, s.pushAddr + 2 < s.params.memSize → exec (.call Reg.sp.index) s = .next t →
    t.fetch = .ok ⟨BitVec.ofNat 8 (s.pc + 2), s.byteAt (s.pushAddr + 1), s.byteAt (s.pushAddr + 2)⟩

/-! ## Interrupts -/

/-- Which interrupt is taken (60_exceptions.md R213, R214; spec decisions D13, D14; log 18 and 19): with interrupts
present and IE = 1, the lowest number whose bit is set in both IM and IS; otherwise none. -/
def Obligations.LowestEnabledPendingInterrupt : Prop :=
  ∀ s : State,
    (∀ i : Fin 8, s.interruptToTake = some i ↔
      s.params.interrupts = true ∧ s.ie = true ∧
      (s.x .im).getLsbD i.val = true ∧ (s.x .is).getLsbD i.val = true ∧
      ∀ j < i.val, ((s.x .im).getLsbD j && (s.x .is).getLsbD j) = false) ∧
    (s.interruptToTake = none ↔
      s.params.interrupts = false ∨ s.ie = false ∨
      ∀ j < 8, ((s.x .im).getLsbD j && (s.x .is).getLsbD j) = false)

/-- Interrupt entry (60_exceptions.md R215; spec decisions D13, D15; log 18 and 20): the taken bit of IS and IE are
cleared; PC modulo 256, FL's image and R0 to R6 go to the nine addresses below SP, modulo 256; SP ends 9 lower; the PC
is the vector's byte as memory then holds it; nothing else changes. -/
def Obligations.InterruptEntryRule : Prop :=
  ∀ (s : State) (i : Fin 8), s.status = .running → s.interruptToTake = some i →
    (∀ k < 9, (s.x .sp - 1 - BitVec.ofNat 8 k).toNat < s.params.memSize) →
    s.params.vectorBase + i.val < s.params.memSize →
    ∃ t, step s = .next t ∧
      (∀ r : Reg, r ≠ .is → r ≠ .sp → t.x r = s.x r) ∧
      (∀ j < 8, (t.x .is).getLsbD j = ((s.x .is).getLsbD j && decide (j ≠ i.val))) ∧
      t.x .sp = s.x .sp - 9 ∧
      t.ie = false ∧
      (∀ k (h : k < 9), t.byteAt (s.x .sp - 1 - BitVec.ofNat 8 k).toNat =
        [BitVec.ofNat 8 s.pc, s.fl.toByte, s.x .r0, s.x .r1, s.x .r2, s.x .r3, s.x .r4, s.x .r5, t.x .is][k]) ∧
      (∀ a, (∀ k < 9, a ≠ (s.x .sp - 1 - BitVec.ofNat 8 k).toNat) → t.byteAt a = s.byteAt a) ∧
      t.pc = (t.byteAt (s.params.vectorBase + i.val)).toNat ∧
      t = { s with regs := t.regs, ie := t.ie, mem := t.mem, pc := t.pc }

/-- Interrupt entry, Exceptions (60_exceptions.md R215; spec decisions D5, D13; log 10 and 18): the first push outside
memory, or the vector read outside memory after nine good pushes, is the error of the tick, and nothing of the entry is
committed: IS, IE, SP and memory stay. The vector read can fail only outside the bounds of 00_scope.md R7
(BoundsKeepStackAndVectorsInMemory). -/
def Obligations.InterruptEntryOutOfRange : Prop :=
  ∀ (s : State) (i : Fin 8), s.status = .running → s.interruptToTake = some i →
    (∀ k < 9, (∀ j < k, (s.x .sp - 1 - BitVec.ofNat 8 j).toNat < s.params.memSize) →
      s.params.memSize ≤ (s.x .sp - 1 - BitVec.ofNat 8 k).toNat →
      step s = .next (s.raise (.memoryOutOfRange (s.x .sp - 1 - BitVec.ofNat 8 k).toNat))) ∧
    ((∀ k < 9, (s.x .sp - 1 - BitVec.ofNat 8 k).toNat < s.params.memSize) →
      s.params.memSize ≤ s.params.vectorBase + i.val →
      step s = .next (s.raise (.memoryOutOfRange (s.params.vectorBase + i.val))))

/-- Entry, handler, return (60_exceptions.md R217, derived in the spec): whatever a handler does to R0 to R6, FL, the
output, other memory and the PC, if it leaves SP and the nine saved bytes where entry left them, IRET gives the
interrupted program R0 to R6 and SP as they were, the serviced IS bit clear, FL as it was, IE set, and the PC, modulo
256, where the program was interrupted. -/
def Obligations.ReturnRestoresTheInterruptedProgram : Prop :=
  ∀ (s t u : State) (i : Fin 8), s.status = .running → s.interruptToTake = some i →
    (∀ k < 9, (s.x .sp - 1 - BitVec.ofNat 8 k).toNat < s.params.memSize) →
    s.params.vectorBase + i.val < s.params.memSize →
    step s = .next t →
    u.params = t.params → u.x .sp = t.x .sp →
    (∀ k < 9, u.byteAt (t.x .sp + BitVec.ofNat 8 k).toNat = t.byteAt (t.x .sp + BitVec.ofNat 8 k).toNat) →
    ∃ v, exec .iret u = .next v ∧
      (∀ r : Reg, r ≠ .is → v.x r = s.x r) ∧
      (∀ j < 8, (v.x .is).getLsbD j = ((s.x .is).getLsbD j && decide (j ≠ i.val))) ∧
      v.fl = s.fl ∧ v.pc = s.pc % 256 ∧ v.ie = true ∧
      v = { u with regs := v.regs, fl := v.fl, pc := v.pc, ie := v.ie }

/-- No nesting (60_exceptions.md R218, derived in the spec; 10_state.md R49, spec decision D12): while IE is clear no
interrupt is taken, and IE is set again only by a tick that runs IRET; it is cleared only by an entry. -/
def Obligations.InterruptsNeverNest : Prop :=
  ∀ s t : State, step s = .next t →
    (s.ie = false → s.interruptToTake = none) ∧
    (s.ie = false → t.ie = true →
      ∃ f, s.fetch = .ok f ∧ decodeFetched s.params f.ir f.opA f.opB = some .iret ∧ exec .iret s = .next t) ∧
    (s.ie = true → t.ie = false → ∃ i, s.interruptToTake = some i ∧ s.enterInterrupt i = .ok t)

/-! ## The host -/

/-- Loading while Idle (70_reset_and_hazards.md R242; the image that does not fit by spec decision D26, log 25): value k,
modulo 256, goes to address k, every other byte and everything else stays; an image longer than memory fails to load,
and so does a load that comes when the machine is not Idle. -/
def Obligations.LoadPlacesTheImage : Prop :=
  ∀ (s : State) (image : List Nat),
    (s.status = .idle → image.length ≤ s.params.memSize →
      ∃ t, s.load image = some t ∧
        (∀ k (h : k < image.length), t.byteAt k = BitVec.ofNat 8 image[k]) ∧
        (∀ a, image.length ≤ a → t.byteAt a = s.byteAt a) ∧
        t = { s with mem := t.mem }) ∧
    (s.params.memSize < image.length → s.load image = none) ∧
    (s.status ≠ .idle → s.load image = none)

/-! ## The parameters -/

/-- What the bounds of 00_scope.md R7 are for (spec decision D20, log 30), in every state whose parameters keep them: at
the initial SP a push is in memory; the vector of an interrupt that is taken is in memory; so an entry fails only by a
push outside memory. -/
def Obligations.BoundsKeepStackAndVectorsInMemory : Prop :=
  ∀ s : State, s.params.legal →
    (s.x .sp = spInit → s.pushAddr < s.params.memSize) ∧
    (∀ i : Fin 8, s.interruptToTake = some i → s.params.vectorBase + i.val < s.params.memSize) ∧
    (∀ (i : Fin 8) (e : FatalError), s.status = .running → s.interruptToTake = some i →
      step s = .next (s.raise e) → ∃ k < 9, s.params.memSize ≤ (s.x .sp - 1 - BitVec.ofNat 8 k).toNat)
end

