-- ==== Sys2Proof/Laws/Decode.lean ====
section
/-! SUPPORT. Lemmas of the decoder's and encoder's parts. -/

namespace Sys2Proof

/-- Every byte the JMP opcode may be has the length field of a two-byte instruction. -/
theorem lengthOf_jmpOpcode (o : JmpOpcode) : lengthOf o.byte = 2 := by
  cases o <;> rfl

/-- Of the parameters the decoder looks at two. -/
theorem decodeKind_params (p : Params) (ir : Byte) :
    decodeKind p ir = decodeKind ⟨0, p.interrupts, 0, true, p.jmpOpcode⟩ ir := rfl

@[simp] theorem Instr.len_ldi (p : Params) (a imm : Byte) : (Instr.ldi a imm).len p = 3 := (by decide : lengthOf 0x99#8 = 3)
@[simp] theorem Instr.len_prn (p : Params) (a : Byte) : (Instr.prn a).len p = 2 := (by decide : lengthOf 0x43#8 = 2)
@[simp] theorem Instr.len_hlt (p : Params) : Instr.hlt.len p = 1 := (by decide : lengthOf 0x01#8 = 1)
@[simp] theorem Instr.len_mul (p : Params) (a b : Byte) : (Instr.mul a b).len p = 3 := (by decide : lengthOf 0xAA#8 = 3)
@[simp] theorem Instr.len_add (p : Params) (a b : Byte) : (Instr.add a b).len p = 3 := (by decide : lengthOf 0xA8#8 = 3)
@[simp] theorem Instr.len_and (p : Params) (a b : Byte) : (Instr.and a b).len p = 3 := (by decide : lengthOf 0xB3#8 = 3)
@[simp] theorem Instr.len_cmp (p : Params) (a b : Byte) : (Instr.cmp a b).len p = 3 := (by decide : lengthOf 0xA0#8 = 3)
@[simp] theorem Instr.len_inc (p : Params) (a : Byte) : (Instr.inc a).len p = 2 := (by decide : lengthOf 0x78#8 = 2)
@[simp] theorem Instr.len_dec (p : Params) (a : Byte) : (Instr.dec a).len p = 2 := (by decide : lengthOf 0x79#8 = 2)
@[simp] theorem Instr.len_div (p : Params) (a b : Byte) : (Instr.div a b).len p = 3 := (by decide : lengthOf 0xAB#8 = 3)
@[simp] theorem Instr.len_jmp (p : Params) (a : Byte) : (Instr.jmp a).len p = 2 := lengthOf_jmpOpcode p.jmpOpcode
@[simp] theorem Instr.len_jeq (p : Params) (a : Byte) : (Instr.jeq a).len p = 2 := (by decide : lengthOf 0x51#8 = 2)
@[simp] theorem Instr.len_jne (p : Params) (a : Byte) : (Instr.jne a).len p = 2 := (by decide : lengthOf 0x52#8 = 2)
@[simp] theorem Instr.len_call (p : Params) (a : Byte) : (Instr.call a).len p = 2 := (by decide : lengthOf 0x48#8 = 2)
@[simp] theorem Instr.len_int (p : Params) (a : Byte) : (Instr.int a).len p = 2 := (by decide : lengthOf 0x4A#8 = 2)
@[simp] theorem Instr.len_iret (p : Params) : Instr.iret.len p = 1 := (by decide : lengthOf 0x0B#8 = 1)

end Sys2Proof
end

