-- ==== Sys2Proof/Laws/State.lean ====
section
/-! SUPPORT. One lemma per field per update of State, each true by rfl. -/

namespace Sys2Proof.Machine

/-! `setX` -/
@[simp] theorem State.setX_params (s : State) (r : Reg) (v : Byte) : (s.setX r v).params = s.params := rfl
@[simp] theorem State.setX_regs (s : State) (r : Reg) (v : Byte) : (s.setX r v).regs = s.regs.set r v := rfl
@[simp] theorem State.setX_pc (s : State) (r : Reg) (v : Byte) : (s.setX r v).pc = s.pc := rfl
@[simp] theorem State.setX_fl (s : State) (r : Reg) (v : Byte) : (s.setX r v).fl = s.fl := rfl
@[simp] theorem State.setX_ie (s : State) (r : Reg) (v : Byte) : (s.setX r v).ie = s.ie := rfl
@[simp] theorem State.setX_mem (s : State) (r : Reg) (v : Byte) : (s.setX r v).mem = s.mem := rfl
@[simp] theorem State.setX_status (s : State) (r : Reg) (v : Byte) : (s.setX r v).status = s.status := rfl
@[simp] theorem State.setX_err (s : State) (r : Reg) (v : Byte) : (s.setX r v).err = s.err := rfl
@[simp] theorem State.setX_out (s : State) (r : Reg) (v : Byte) : (s.setX r v).out = s.out := rfl

/-! `emit` -/
@[simp] theorem State.emit_params (s : State) (v : Byte) : (s.emit v).params = s.params := rfl
@[simp] theorem State.emit_regs (s : State) (v : Byte) : (s.emit v).regs = s.regs := rfl
@[simp] theorem State.emit_pc (s : State) (v : Byte) : (s.emit v).pc = s.pc := rfl
@[simp] theorem State.emit_fl (s : State) (v : Byte) : (s.emit v).fl = s.fl := rfl
@[simp] theorem State.emit_ie (s : State) (v : Byte) : (s.emit v).ie = s.ie := rfl
@[simp] theorem State.emit_mem (s : State) (v : Byte) : (s.emit v).mem = s.mem := rfl
@[simp] theorem State.emit_status (s : State) (v : Byte) : (s.emit v).status = s.status := rfl
@[simp] theorem State.emit_err (s : State) (v : Byte) : (s.emit v).err = s.err := rfl
@[simp] theorem State.emit_out (s : State) (v : Byte) : (s.emit v).out = s.out ++ [v] := rfl

/-! `raise` -/
@[simp] theorem State.raise_params (s : State) (e : FatalError) : (s.raise e).params = s.params := rfl
@[simp] theorem State.raise_regs (s : State) (e : FatalError) : (s.raise e).regs = s.regs := rfl
@[simp] theorem State.raise_pc (s : State) (e : FatalError) : (s.raise e).pc = s.pc := rfl
@[simp] theorem State.raise_fl (s : State) (e : FatalError) : (s.raise e).fl = s.fl := rfl
@[simp] theorem State.raise_ie (s : State) (e : FatalError) : (s.raise e).ie = s.ie := rfl
@[simp] theorem State.raise_mem (s : State) (e : FatalError) : (s.raise e).mem = s.mem := rfl
@[simp] theorem State.raise_status (s : State) (e : FatalError) : (s.raise e).status = .halted := rfl
@[simp] theorem State.raise_err (s : State) (e : FatalError) : (s.raise e).err = some (e.record s.pc) := rfl
@[simp] theorem State.raise_out (s : State) (e : FatalError) : (s.raise e).out = s.out := rfl

/-! `start` -/
@[simp] theorem State.start_params (s : State) : s.start.params = s.params := rfl
@[simp] theorem State.start_regs (s : State) : s.start.regs = s.regs := rfl
@[simp] theorem State.start_pc (s : State) : s.start.pc = s.pc := rfl
@[simp] theorem State.start_fl (s : State) : s.start.fl = s.fl := rfl
@[simp] theorem State.start_ie (s : State) : s.start.ie = s.ie := rfl
@[simp] theorem State.start_mem (s : State) : s.start.mem = s.mem := rfl
@[simp] theorem State.start_status (s : State) : s.start.status = .running := rfl
@[simp] theorem State.start_err (s : State) : s.start.err = s.err := rfl
@[simp] theorem State.start_out (s : State) : s.start.out = s.out := rfl

/-! `carryOn` and `jump` -/
@[simp] theorem State.carryOn_state (s : State) : s.carryOn.state = s := rfl
@[simp] theorem State.carryOn_pcSet (s : State) : s.carryOn.pcSet = false := rfl
@[simp] theorem State.jump_state (s : State) (t : Nat) : (s.jump t).state = { s with pc := t } := rfl
@[simp] theorem State.jump_pcSet (s : State) (t : Nat) : (s.jump t).pcSet = true := rfl

/-! `advance` -/
@[simp] theorem State.advance_carryOn (s t : State) (i : Instr) :
    s.advance i t.carryOn = { t with pc := s.pc + i.len s.params } := rfl
@[simp] theorem State.advance_jump (s t : State) (i : Instr) (target : Nat) :
    s.advance i (t.jump target) = { t with pc := target } := rfl

/-! `resetWith` -/
@[simp] theorem State.resetWith_params (p : Params) (h : p.legal) : (State.resetWith p h).params = p := rfl
@[simp] theorem State.resetWith_regs (p : Params) (h : p.legal) : (State.resetWith p h).regs = RegFile.reset := rfl
@[simp] theorem State.resetWith_pc (p : Params) (h : p.legal) : (State.resetWith p h).pc = 0 := rfl
@[simp] theorem State.resetWith_mem (p : Params) (h : p.legal) : (State.resetWith p h).mem = [] := rfl
@[simp] theorem State.resetWith_status (p : Params) (h : p.legal) : (State.resetWith p h).status = .idle := rfl
@[simp] theorem State.resetWith_err (p : Params) (h : p.legal) : (State.resetWith p h).err = none := rfl

end Sys2Proof.Machine
end

