-- ==== Sys2Proof/Laws/Memory.lean ====
section
/-! SUPPORT. Memory: reading after a write, and that every operation keeps the canonical form. -/

namespace Sys2Proof.Machine

@[simp] theorem Memory.peek_nil (a : Nat) : Memory.peek [] a = 0 := rfl

theorem Memory.peek_cons (b : Nat) (w : Byte) (m : Memory) (a : Nat) :
    Memory.peek ((b, w) :: m) a = if a = b then w else Memory.peek m a := rfl

theorem Memory.peek_filter (m : Memory) (a c : Nat) :
    Memory.peek (m.filter (fun x => x.1 != a)) c = if c = a then 0 else m.peek c := by
  induction m with
  | nil => simp
  | cons x m ih =>
    obtain ⟨b, w⟩ := x
    by_cases hb : b = a
    · subst hb
      simp only [List.filter_cons, bne_self_eq_false, Bool.false_eq_true, if_false, ih, Memory.peek_cons]
      split <;> rfl
    · have : (b != a) = true := by simpa using hb
      simp only [List.filter_cons, this, if_true, Memory.peek_cons, ih]
      split
      · rename_i h; simp [h, hb]
      · rfl

theorem Memory.peek_insertCell (m : Memory) (a c : Nat) (v : Byte) :
    (m.insertCell a v).peek c = if c = a then v else m.peek c := by
  induction m with
  | nil => rfl
  | cons x m ih =>
    obtain ⟨b, w⟩ := x
    simp only [Memory.insertCell]
    split
    · rfl
    · split
      · rename_i h; subst h
        simp only [Memory.peek_cons]
        split <;> rfl
      · rename_i h1 h2
        simp only [Memory.peek_cons, ih]
        split
        · rename_i h; subst h; simp [Ne.symm h2]
        · rfl

/-- A read after a write: the value written, or what the address held before. -/
theorem Memory.peek_poke (m : Memory) (a c : Nat) (v : Byte) :
    (m.poke a v).peek c = if c = a then v else m.peek c := by
  unfold Memory.poke
  split
  · rename_i h; subst h; exact Memory.peek_filter m a c
  · exact Memory.peek_insertCell m a c v

theorem Memory.peek_poke_same (m : Memory) (a : Nat) (v : Byte) : (m.poke a v).peek a = v := by
  simp [Memory.peek_poke]

theorem Memory.peek_poke_other (m : Memory) {a c : Nat} (v : Byte) (h : c ≠ a) :
    (m.poke a v).peek c = m.peek c := by
  simp [Memory.peek_poke, h]

theorem Memory.wf_cons (n a : Nat) (v : Byte) (m : Memory) :
    Memory.wf n ((a, v) :: m) = true ↔
      a < n ∧ v ≠ 0 ∧ (∀ c ∈ m, a < c.1) ∧ Memory.wf n m = true := by
  simp [Memory.wf, and_assoc]

theorem Memory.wf_nil (n : Nat) : Memory.wf n [] = true := rfl

theorem Memory.wf_filter (n : Nat) (f : Host.Cell → Bool) (m : Memory) (h : m.wf n = true) :
    Memory.wf n (m.filter f) = true := by
  induction m with
  | nil => rfl
  | cons x m ih =>
    obtain ⟨b, w⟩ := x
    obtain ⟨h1, h2, h3, h4⟩ := (Memory.wf_cons n b w m).mp h
    rw [List.filter_cons]
    split
    · exact (Memory.wf_cons ..).mpr ⟨h1, h2, fun c hc => h3 c (List.mem_of_mem_filter hc), ih h4⟩
    · exact ih h4

theorem Memory.mem_insertCell {m : Memory} {a : Nat} {v : Byte} {c : Host.Cell}
    (h : c ∈ m.insertCell a v) : c = (a, v) ∨ c ∈ m := by
  induction m with
  | nil => simpa [Memory.insertCell] using h
  | cons x m ih =>
    obtain ⟨b, w⟩ := x
    simp only [Memory.insertCell] at h
    split at h
    · simpa using h
    · split at h
      · rcases List.mem_cons.mp h with h | h
        · exact .inl h
        · exact .inr (List.mem_cons_of_mem _ h)
      · rcases List.mem_cons.mp h with h | h
        · exact .inr (h ▸ List.mem_cons_self)
        · rcases ih h with h | h
          · exact .inl h
          · exact .inr (List.mem_cons_of_mem _ h)

theorem Memory.wf_insertCell {n : Nat} {m : Memory} {a : Nat} {v : Byte} (h : m.wf n = true) (ha : a < n)
    (hv : v ≠ 0) : (m.insertCell a v).wf n = true := by
  induction m with
  | nil => exact (Memory.wf_cons n a v []).mpr ⟨ha, hv, by simp, rfl⟩
  | cons x m ih =>
    obtain ⟨b, w⟩ := x
    obtain ⟨h1, h2, h3, h4⟩ := (Memory.wf_cons n b w m).mp h
    simp only [Memory.insertCell]
    split
    · rename_i hab
      refine (Memory.wf_cons ..).mpr ⟨ha, hv, fun c hc => ?_, h⟩
      rcases List.mem_cons.mp hc with rfl | hc
      · exact hab
      · exact Nat.lt_trans hab (h3 c hc)
    · split
      · rename_i hab; subst hab
        exact (Memory.wf_cons ..).mpr ⟨ha, hv, h3, h4⟩
      · refine (Memory.wf_cons ..).mpr ⟨h1, h2, fun c hc => ?_, ih h4⟩
        rcases Memory.mem_insertCell hc with rfl | hc
        · simp only; omega
        · exact h3 c hc

/-- A write keeps the canonical form. -/
theorem Memory.wf_poke {n : Nat} {m : Memory} {a : Nat} (v : Byte) (h : m.wf n = true) (ha : a < n) :
    (m.poke a v).wf n = true := by
  unfold Memory.poke
  split
  · exact Memory.wf_filter n _ m h
  · exact Memory.wf_insertCell h ha ‹_›

/-- The memory of the state after reset is in canonical form. -/
theorem reset_mem_wf : State.reset.mem.wf State.reset.params.memSize = true := rfl

end Sys2Proof.Machine
end

