-- ==== Sys2Proof/Laws/Registers.lean ====
section
/-! SUPPORT. The register file and the register-index check. -/

namespace Sys2Proof.Machine

theorem RegFile.get_set (f : RegFile) (r q : Reg) (v : Byte) :
    (f.set r v).get q = if q = r then v else f.get q := by
  cases r <;> cases q <;> rfl

@[simp] theorem RegFile.get_set_same (f : RegFile) (r : Reg) (v : Byte) : (f.set r v).get r = v := by
  simp [RegFile.get_set]

theorem RegFile.get_set_other (f : RegFile) {r q : Reg} (v : Byte) (h : q ≠ r) :
    (f.set r v).get q = f.get q := by
  simp [RegFile.get_set, h]

/-- Two register files that read the same are the same. -/
theorem RegFile.ext_get {f g : RegFile} (h : ∀ r, f.get r = g.get r) : f = g := by
  cases f; cases g
  simp only [RegFile.mk.injEq]
  exact ⟨h .r0, h .r1, h .r2, h .r3, h .r4, h .r5, h .r6, h .r7⟩

theorem State.x_setX (s : State) (r q : Reg) (v : Byte) :
    (s.setX r v).x q = if q = r then v else s.x q :=
  RegFile.get_set s.regs r q v

@[simp] theorem State.x_setX_same (s : State) (r : Reg) (v : Byte) : (s.setX r v).x r = v := by
  simp [State.x_setX]

theorem ofByte_index (r : Reg) : Reg.ofByte r.index = some r := by
  cases r <;> rfl

theorem index_lt (r : Reg) : r.index.toNat < 8 := by
  cases r <;> decide

theorem ofByte_of_lt {i : Byte} (h : i.toNat < 8) : ∃ r, Reg.ofByte i = some r ∧ i = r.index := by
  have key : ∀ n : Fin 256, n.val < 8 → ∃ r, Reg.ofByte (BitVec.ofFin n) = some r ∧ BitVec.ofFin n = r.index := by
    intro n hn
    have : n = 0 ∨ n = 1 ∨ n = 2 ∨ n = 3 ∨ n = 4 ∨ n = 5 ∨ n = 6 ∨ n = 7 := by omega
    rcases this with rfl | rfl | rfl | rfl | rfl | rfl | rfl | rfl
    · exact ⟨.r0, rfl, rfl⟩
    · exact ⟨.r1, rfl, rfl⟩
    · exact ⟨.r2, rfl, rfl⟩
    · exact ⟨.r3, rfl, rfl⟩
    · exact ⟨.r4, rfl, rfl⟩
    · exact ⟨.r5, rfl, rfl⟩
    · exact ⟨.r6, rfl, rfl⟩
    · exact ⟨.r7, rfl, rfl⟩
  exact key i.toFin h

theorem ofByte_of_ge {i : Byte} (h : 8 ≤ i.toNat) : Reg.ofByte i = none := by
  unfold Reg.ofByte
  split <;> first | rfl | omega

@[simp] theorem checkReg_index (r : Reg) : checkReg r.index = .ok r := by
  simp [checkReg, ofByte_index]

theorem checkReg_bad {i : Byte} (h : 8 ≤ i.toNat) : checkReg i = .error (.badRegisterIndex i) := by
  simp [checkReg, ofByte_of_ge h]

/-- What the register-index check can answer. -/
theorem checkReg_cases (i : Byte) :
    (∃ r, i = r.index ∧ checkReg i = .ok r) ∨ (8 ≤ i.toNat ∧ checkReg i = .error (.badRegisterIndex i)) := by
  rcases Nat.lt_or_ge i.toNat 8 with h | h
  · obtain ⟨r, _, rfl⟩ := ofByte_of_lt h
    exact .inl ⟨r, rfl, checkReg_index r⟩
  · exact .inr ⟨h, checkReg_bad h⟩

end Sys2Proof.Machine
end

