-- ==== Sys2Proof/Laws/Ops.lean ====
section
/-! SUPPORT. One lemma per shared operation that says everything it can do. -/

namespace Sys2Proof.Machine

@[simp] theorem ok_bind {ε α β : Type} (a : α) (f : α → Except ε β) : (Except.ok a >>= f) = f a := rfl
@[simp] theorem error_bind {ε α β : Type} (e : ε) (f : α → Except ε β) :
    ((Except.error e : Except ε α) >>= f) = .error e := rfl
@[simp] theorem pure_eq_ok {ε α : Type} (a : α) : (pure a : Except ε α) = .ok a := rfl

/-- A sequence that succeeds succeeds at each part. -/
theorem bind_eq_ok {ε α β : Type} {x : Except ε α} {f : α → Except ε β} {b : β} (h : (x >>= f) = .ok b) :
    ∃ a, x = .ok a ∧ f a = .ok b := by
  cases x with
  | error e => cases h
  | ok a => exact ⟨a, rfl, h⟩

/-! ## Memory port -/

theorem State.memRead_eq_ok {s : State} {a : Nat} {v : Byte} :
    s.memRead a = .ok v ↔ a < s.params.memSize ∧ v = s.byteAt a := by
  unfold State.memRead
  split
  · constructor
    · intro h; cases h
    · rintro ⟨h, _⟩; omega
  · constructor
    · intro h; cases h; exact ⟨by omega, rfl⟩
    · rintro ⟨_, rfl⟩; rfl

theorem State.memRead_of_lt {s : State} {a : Nat} (h : a < s.params.memSize) : s.memRead a = .ok (s.byteAt a) :=
  State.memRead_eq_ok.mpr ⟨h, rfl⟩

theorem State.memRead_of_ge {s : State} {a : Nat} (h : s.params.memSize ≤ a) :
    s.memRead a = .error (.memoryOutOfRange a) := by
  simp [State.memRead, h]

theorem State.memWrite_eq_ok {s t : State} {a v : Nat} :
    s.memWrite a v = .ok t ↔ a < s.params.memSize ∧ t = { s with mem := s.mem.poke a (BitVec.ofNat 8 v) } := by
  unfold State.memWrite
  split
  · constructor
    · intro h; cases h
    · rintro ⟨h, _⟩; omega
  · constructor
    · intro h; cases h; exact ⟨by omega, rfl⟩
    · rintro ⟨_, rfl⟩; rfl

theorem State.memWrite_of_lt {s : State} {a : Nat} (v : Nat) (h : a < s.params.memSize) :
    s.memWrite a v = .ok { s with mem := s.mem.poke a (BitVec.ofNat 8 v) } :=
  State.memWrite_eq_ok.mpr ⟨h, rfl⟩

theorem State.memWrite_of_ge {s : State} {a : Nat} (v : Nat) (h : s.params.memSize ≤ a) :
    s.memWrite a v = .error (.memoryOutOfRange a) := by
  simp [State.memWrite, h]

/-- A write through the port keeps the canonical form of memory. -/
theorem State.memWrite_wf {s t : State} {a v : Nat} (h : s.memWrite a v = .ok t)
    (hw : s.mem.wf s.params.memSize = true) : t.mem.wf t.params.memSize = true := by
  obtain ⟨hlt, rfl⟩ := State.memWrite_eq_ok.mp h
  exact Memory.wf_poke _ hw hlt

/-! ## Stack -/

/-- The state a push that succeeds makes. -/
def State.pushed (s : State) (v : Nat) : State :=
  { s.setX .sp (s.x .sp - 1) with mem := s.mem.poke s.pushAddr (BitVec.ofNat 8 v) }

@[simp] theorem State.pushed_params (s : State) (v : Nat) : (s.pushed v).params = s.params := rfl
@[simp] theorem State.pushed_regs (s : State) (v : Nat) : (s.pushed v).regs = s.regs.set .sp (s.x .sp - 1) := rfl
@[simp] theorem State.pushed_pc (s : State) (v : Nat) : (s.pushed v).pc = s.pc := rfl
@[simp] theorem State.pushed_fl (s : State) (v : Nat) : (s.pushed v).fl = s.fl := rfl
@[simp] theorem State.pushed_ie (s : State) (v : Nat) : (s.pushed v).ie = s.ie := rfl
@[simp] theorem State.pushed_mem (s : State) (v : Nat) :
    (s.pushed v).mem = s.mem.poke s.pushAddr (BitVec.ofNat 8 v) := rfl
@[simp] theorem State.pushed_status (s : State) (v : Nat) : (s.pushed v).status = s.status := rfl
@[simp] theorem State.pushed_err (s : State) (v : Nat) : (s.pushed v).err = s.err := rfl
@[simp] theorem State.pushed_out (s : State) (v : Nat) : (s.pushed v).out = s.out := rfl

theorem State.push_eq_ok {s t : State} {v : Nat} :
    s.push v = .ok t ↔ s.pushAddr < s.params.memSize ∧ t = s.pushed v :=
  State.memWrite_eq_ok

theorem State.push_of_lt {s : State} (v : Nat) (h : s.pushAddr < s.params.memSize) : s.push v = .ok (s.pushed v) :=
  State.push_eq_ok.mpr ⟨h, rfl⟩

theorem State.push_of_ge {s : State} (v : Nat) (h : s.params.memSize ≤ s.pushAddr) :
    s.push v = .error (.memoryOutOfRange s.pushAddr) :=
  State.memWrite_of_ge v h

/-- A push keeps the canonical form of memory. -/
theorem State.push_wf {s t : State} {v : Nat} (h : s.push v = .ok t) (hw : s.mem.wf s.params.memSize = true) :
    t.mem.wf t.params.memSize = true :=
  State.memWrite_wf h hw

theorem State.pushReg_eq_ok {s t : State} {r : Reg} :
    s.pushReg r = .ok t ↔ s.pushAddr < s.params.memSize ∧ t = s.pushed (s.x r).toNat :=
  State.push_eq_ok

theorem State.pop_eq_ok {s t : State} {v : Byte} :
    s.pop = .ok (v, t) ↔
      (s.x .sp).toNat < s.params.memSize ∧ v = s.byteAt (s.x .sp).toNat ∧ t = s.setX .sp (s.x .sp + 1) := by
  constructor
  · intro h
    obtain ⟨w, hw, h⟩ := bind_eq_ok h
    obtain ⟨hlt, rfl⟩ := State.memRead_eq_ok.mp hw
    cases h
    exact ⟨hlt, rfl, rfl⟩
  · rintro ⟨hlt, rfl, rfl⟩
    simp only [State.pop, State.memRead_of_lt hlt, ok_bind, pure_eq_ok]

theorem State.popReg_eq_ok {s t : State} {r : Reg} :
    s.popReg r = .ok t ↔
      (s.x .sp).toNat < s.params.memSize ∧
      t = (s.setX .sp (s.x .sp + 1)).setX r (s.byteAt (s.x .sp).toNat) := by
  constructor
  · intro h
    obtain ⟨⟨v, u⟩, hp, h⟩ := bind_eq_ok h
    obtain ⟨hlt, rfl, rfl⟩ := State.pop_eq_ok.mp hp
    cases h
    exact ⟨hlt, rfl⟩
  · rintro ⟨hlt, rfl⟩
    simp only [State.popReg, State.pop_eq_ok.mpr ⟨hlt, rfl, rfl⟩, ok_bind, pure_eq_ok]

/-! ## Commit and dispatch -/

/-- What the commit of a sequence can answer: always a next state, the sequence's or the raise of its error. -/
theorem State.commit_cases (s : State) (r : Except FatalError State) :
    (∃ t, r = .ok t ∧ s.commit r = .next t) ∨ (∃ e, r = .error e ∧ s.commit r = .next (s.raise e)) := by
  cases r with
  | ok t => exact .inl ⟨t, rfl, rfl⟩
  | error e => exact .inr ⟨e, rfl, rfl⟩

@[simp] theorem State.dispatch_ok (s : State) (i : Instr) (h : Handled) :
    s.dispatch i (.ok h) = .next (s.advance i h) := rfl

@[simp] theorem State.dispatch_error (s : State) (i : Instr) (e : FatalError) :
    s.dispatch i (.error e) = .next (s.raise e) := rfl

/-- What the dispatch of a handler can answer. -/
theorem State.dispatch_next {s t : State} {i : Instr} {r : Except FatalError Handled}
    (h : s.dispatch i r = .next t) :
    (∃ k, r = .ok k ∧ t = s.advance i k) ∨ (∃ e, r = .error e ∧ t = s.raise e) := by
  cases r with
  | ok k => cases h; exact .inl ⟨k, rfl, rfl⟩
  | error e => cases h; exact .inr ⟨e, rfl, rfl⟩

theorem State.dispatch_is_next (s : State) (i : Instr) (r : Except FatalError Handled) :
    ∃ t, s.dispatch i r = .next t := by
  cases r <;> exact ⟨_, rfl⟩

/-! ## Fetch -/

theorem State.fetch_eq_ok {s : State} {f : Fetched} :
    s.fetch = .ok f ↔
      s.pc + 2 < s.params.memSize ∧
      f = ⟨s.byteAt s.pc, s.byteAt (s.pc + 1), s.byteAt (s.pc + 2)⟩ := by
  constructor
  · intro h
    obtain ⟨ir, h0, h⟩ := bind_eq_ok h
    obtain ⟨a, h1, h⟩ := bind_eq_ok h
    obtain ⟨b, h2, h⟩ := bind_eq_ok h
    obtain ⟨_, rfl⟩ := State.memRead_eq_ok.mp h0
    obtain ⟨_, rfl⟩ := State.memRead_eq_ok.mp h1
    obtain ⟨hlt, rfl⟩ := State.memRead_eq_ok.mp h2
    cases h
    exact ⟨hlt, rfl⟩
  · rintro ⟨hlt, rfl⟩
    have h0 : s.pc < s.params.memSize := by omega
    have h1 : s.pc + 1 < s.params.memSize := by omega
    simp only [State.fetch, State.memRead_of_lt h0, State.memRead_of_lt h1, State.memRead_of_lt hlt, ok_bind,
      pure_eq_ok]

end Sys2Proof.Machine
end

