-- ==== Sys2Proof/Laws/Step.lean ====
section
/-! SUPPORT. What the shared handlers, the tick and the step can do, said once. -/

namespace Sys2Proof.Machine

/-! ## Handlers -/

theorem State.aluTwo_index (s : State) (op : AluOp) (ra rb : Reg) :
    s.aluTwo op ra.index rb.index =
      (alu op (s.x ra) (s.x rb)).map (fun o => (s.writeAlu ra o).carryOn) := by
  simp only [State.aluTwo, checkReg_index, ok_bind]
  cases alu op (s.x ra) (s.x rb) <;> rfl

theorem State.aluTwo_bad_first (s : State) (op : AluOp) {a : Byte} (b : Byte) (h : 8 ≤ a.toNat) :
    s.aluTwo op a b = .error (.badRegisterIndex a) := by
  simp [State.aluTwo, checkReg_bad h]

theorem State.aluTwo_bad_second (s : State) (op : AluOp) (ra : Reg) {b : Byte} (h : 8 ≤ b.toNat) :
    s.aluTwo op ra.index b = .error (.badRegisterIndex b) := by
  simp [State.aluTwo, checkReg_bad h]

theorem State.aluOne_index (s : State) (op : AluOp) (ra : Reg) :
    s.aluOne op ra.index = (alu op (s.x ra) 0).map (fun o => (s.writeAlu ra o).carryOn) := by
  simp only [State.aluOne, checkReg_index, ok_bind]
  cases alu op (s.x ra) 0 <;> rfl

theorem State.aluOne_bad (s : State) (op : AluOp) {a : Byte} (h : 8 ≤ a.toNat) :
    s.aluOne op a = .error (.badRegisterIndex a) := by
  simp [State.aluOne, checkReg_bad h]

theorem State.branch_index (s : State) (taken : Bool) (ra : Reg) :
    s.branch taken ra.index = .ok (if taken then s.jump (s.x ra).toNat else s.carryOn) := by
  simp [State.branch]

theorem State.branch_bad (s : State) (taken : Bool) {a : Byte} (h : 8 ≤ a.toNat) :
    s.branch taken a = .error (.badRegisterIndex a) := by
  simp [State.branch, checkReg_bad h]

/-- What a two-register ALU handler leaves when it succeeds: an alu output written, nothing else. -/
theorem State.aluTwo_eq_ok {s : State} {op : AluOp} {a b : Byte} {k : Handled} (h : s.aluTwo op a b = .ok k) :
    ∃ ra rb o, a = ra.index ∧ b = rb.index ∧ alu op (s.x ra) (s.x rb) = .ok o ∧ k = (s.writeAlu ra o).carryOn := by
  obtain ⟨ra, ha, h⟩ := bind_eq_ok h
  obtain ⟨rb, hb, h⟩ := bind_eq_ok h
  obtain ⟨o, ho, h⟩ := bind_eq_ok h
  cases h
  rcases checkReg_cases a with ⟨r, hr, h1⟩ | ⟨_, h1⟩ <;> rw [h1] at ha <;> cases ha
  rcases checkReg_cases b with ⟨q, hq, h2⟩ | ⟨_, h2⟩ <;> rw [h2] at hb <;> cases hb
  exact ⟨ra, rb, o, hr, hq, ho, rfl⟩

/-- What a one-register ALU handler leaves when it succeeds. -/
theorem State.aluOne_eq_ok {s : State} {op : AluOp} {a : Byte} {k : Handled} (h : s.aluOne op a = .ok k) :
    ∃ ra o, a = ra.index ∧ alu op (s.x ra) 0 = .ok o ∧ k = (s.writeAlu ra o).carryOn := by
  obtain ⟨ra, ha, h⟩ := bind_eq_ok h
  obtain ⟨o, ho, h⟩ := bind_eq_ok h
  cases h
  rcases checkReg_cases a with ⟨r, hr, h1⟩ | ⟨_, h1⟩ <;> rw [h1] at ha <;> cases ha
  exact ⟨ra, o, hr, ho, rfl⟩

/-- What a branch handler leaves when it succeeds. -/
theorem State.branch_eq_ok {s : State} {taken : Bool} {a : Byte} {k : Handled} (h : s.branch taken a = .ok k) :
    ∃ ra, a = ra.index ∧ k = if taken then s.jump (s.x ra).toNat else s.carryOn := by
  obtain ⟨ra, ha, h⟩ := bind_eq_ok h
  cases h
  rcases checkReg_cases a with ⟨r, hr, h1⟩ | ⟨_, h1⟩ <;> rw [h1] at ha <;> cases ha
  exact ⟨ra, hr, rfl⟩

/-! ## Interrupt entry -/

/-- The state after successful pushes of the listed values, the first listed pushed first. -/
def State.pushedAll (s : State) : List Nat → State
  | [] => s
  | v :: vs => (s.pushed v).pushedAll vs

theorem State.pushedAll_snoc (s : State) (vs : List Nat) (v : Nat) :
    (s.pushedAll vs).pushed v = s.pushedAll (vs ++ [v]) := by
  induction vs generalizing s with
  | nil => rfl
  | cons w vs ih => exact ih (s.pushed w)

theorem State.pushed_x (s : State) (v : Nat) {r : Reg} (h : r ≠ .sp) : (s.pushed v).x r = s.x r :=
  RegFile.get_set_other s.regs _ h

theorem State.pushed_x_sp (s : State) (v : Nat) : (s.pushed v).x .sp = s.x .sp - 1 :=
  RegFile.get_set_same s.regs .sp _

theorem State.pushedAll_x (s : State) (vs : List Nat) {r : Reg} (h : r ≠ .sp) : (s.pushedAll vs).x r = s.x r := by
  induction vs generalizing s with
  | nil => rfl
  | cons w vs ih => exact (ih (s.pushed w)).trans (State.pushed_x s w h)

theorem State.pushedAll_x_sp (s : State) (vs : List Nat) :
    (s.pushedAll vs).x .sp = s.x .sp - BitVec.ofNat 8 vs.length := by
  induction vs generalizing s with
  | nil => simp [State.pushedAll]
  | cons w vs ih =>
    rw [State.pushedAll, ih, State.pushed_x_sp, List.length_cons]
    bv_omega

/-- Pushes change only SP and memory. -/
theorem State.pushedAll_frame (s : State) (vs : List Nat) :
    s.pushedAll vs =
      { s with
        regs := s.regs.set .sp (s.x .sp - BitVec.ofNat 8 vs.length)
        mem := (s.pushedAll vs).mem } := by
  have hx := State.pushedAll_x_sp s vs
  have hr : (s.pushedAll vs).regs = s.regs.set .sp (s.x .sp - BitVec.ofNat 8 vs.length) := by
    refine RegFile.ext_get fun r => ?_
    by_cases h : r = .sp
    · subst h; rw [RegFile.get_set_same]; exact hx
    · rw [RegFile.get_set_other _ _ h]; exact State.pushedAll_x s vs h
  rw [← hr]
  clear hx hr
  induction vs generalizing s with
  | nil => rfl
  | cons w vs ih => rw [State.pushedAll, ih (s.pushed w)]; rfl

/-- What pushes store: value `k` at SP - 1 - k, for fewer than 256 pushes. -/
theorem State.byteAt_pushedAll (s : State) (vs : List Nat) (hn : vs.length ≤ 256) (k : Nat) (hk : k < vs.length) :
    (s.pushedAll vs).byteAt (s.x .sp - 1 - BitVec.ofNat 8 k).toNat = BitVec.ofNat 8 vs[k] := by
  induction vs using List.reverseRecOn with
  | nil => simp at hk
  | append_singleton vs v ih =>
    simp only [List.length_append, List.length_cons, List.length_nil] at hn hk
    rw [← State.pushedAll_snoc]
    unfold State.byteAt
    rw [State.pushed_mem, Memory.peek_poke]
    unfold State.pushAddr
    rw [State.pushedAll_x_sp]
    rcases Nat.lt_or_ge k vs.length with h | h
    · have hne : (s.x .sp - 1 - BitVec.ofNat 8 k).toNat ≠ (s.x .sp - BitVec.ofNat 8 vs.length - 1).toNat := by
        bv_omega
      rw [if_neg hne]
      rw [List.getElem_append_left h]
      exact ih (by omega) h
    · have hk' : k = vs.length := by omega
      subst hk'
      rw [if_pos (by bv_omega)]
      simp

/-- What pushes leave alone: every address that is none of SP - 1 - k. -/
theorem State.byteAt_pushedAll_other (s : State) (vs : List Nat) (a : Nat)
    (h : ∀ k < vs.length, a ≠ (s.x .sp - 1 - BitVec.ofNat 8 k).toNat) :
    (s.pushedAll vs).byteAt a = s.byteAt a := by
  induction vs using List.reverseRecOn with
  | nil => rfl
  | append_singleton vs v ih =>
    simp only [List.length_append, List.length_cons, List.length_nil] at h
    rw [← State.pushedAll_snoc]
    unfold State.byteAt
    rw [State.pushed_mem, Memory.peek_poke_other]
    · exact ih fun k hk => h k (by omega)
    · unfold State.pushAddr
      rw [State.pushedAll_x_sp]
      have := h vs.length (by omega)
      intro he
      apply this
      rw [he]
      congr 1
      bv_omega

/-- The state an interrupt entry starts its pushes from: the IS bit and IE cleared. -/
def State.entryStart (s : State) (i : Fin 8) : State :=
  { s.setX .is (s.x .is &&& ~~~(1#8 <<< i.val)) with ie := false }

/-- The nine values an interrupt entry pushes, in order. -/
def State.entryValues (s : State) (i : Fin 8) : List Nat :=
  [s.pc, s.fl.toByte.toNat, (s.x .r0).toNat, (s.x .r1).toNat, (s.x .r2).toNat, (s.x .r3).toNat, (s.x .r4).toNat,
    (s.x .r5).toNat, (s.x .is &&& ~~~(1#8 <<< i.val)).toNat]

/-- The state after the nine pushes of an interrupt entry. -/
def State.entryPushed (s : State) (i : Fin 8) : State :=
  (s.entryStart i).pushedAll (s.entryValues i)

theorem State.entryStart_x (s : State) (i : Fin 8) {r : Reg} (h : r ≠ .is) : (s.entryStart i).x r = s.x r :=
  RegFile.get_set_other s.regs _ h

/-- One more register pushed. -/
theorem State.pushReg_pushedAll {s t : State} {vs : List Nat} {r : Reg} (hr : r ≠ .sp)
    (h : (s.pushedAll vs).pushReg r = .ok t) : t = s.pushedAll (vs ++ [(s.x r).toNat]) := by
  obtain ⟨_, rfl⟩ := State.pushReg_eq_ok.mp h
  rw [State.pushedAll_x s vs hr, State.pushedAll_snoc]

/-- What interrupt entry leaves when it succeeds: the nine pushes, and the PC from the vector. -/
theorem State.enterInterrupt_eq_ok {s t : State} {i : Fin 8} (h : s.enterInterrupt i = .ok t) :
    s.params.vectorBase + i.val < s.params.memSize ∧
    t = { s.entryPushed i with pc := ((s.entryPushed i).byteAt (s.params.vectorBase + i.val)).toNat } := by
  have x6 : ∀ r, r ≠ .is → (s.entryStart i).x r = s.x r := fun r hr => State.entryStart_x s i hr
  have x6' : (s.entryStart i).x .r6 = s.x .is &&& ~~~(1#8 <<< i.val) := State.x_setX_same s .is _
  obtain ⟨s1, h1, h⟩ := bind_eq_ok h
  obtain ⟨s2, h2, h⟩ := bind_eq_ok h
  obtain ⟨s3, h3, h⟩ := bind_eq_ok h
  obtain ⟨s4, h4, h⟩ := bind_eq_ok h
  obtain ⟨s5, h5, h⟩ := bind_eq_ok h
  obtain ⟨s6, h6, h⟩ := bind_eq_ok h
  obtain ⟨s7, h7, h⟩ := bind_eq_ok h
  obtain ⟨s8, h8, h⟩ := bind_eq_ok h
  obtain ⟨s9, h9, h⟩ := bind_eq_ok h
  obtain ⟨v, hv, h⟩ := bind_eq_ok h
  obtain ⟨_, e1⟩ := State.push_eq_ok.mp h1
  replace e1 : s1 = (s.entryStart i).pushedAll [s.pc] := e1
  have hfl : s1.fl = s.fl := by rw [e1]; rfl
  obtain ⟨_, e2⟩ := State.push_eq_ok.mp h2
  rw [hfl, e1, State.pushedAll_snoc] at e2
  rw [e2] at h3
  have e3 := State.pushReg_pushedAll (by decide) h3
  rw [e3] at h4
  have e4 := State.pushReg_pushedAll (by decide) h4
  rw [e4] at h5
  have e5 := State.pushReg_pushedAll (by decide) h5
  rw [e5] at h6
  have e6 := State.pushReg_pushedAll (by decide) h6
  rw [e6] at h7
  have e7 := State.pushReg_pushedAll (by decide) h7
  rw [e7] at h8
  have e8 := State.pushReg_pushedAll (by decide) h8
  rw [e8] at h9
  have e9 := State.pushReg_pushedAll (by decide) h9
  have e : s9 = s.entryPushed i := by
    rw [e9, x6', x6 .r0 (by decide), x6 .r1 (by decide), x6 .r2 (by decide), x6 .r3 (by decide),
      x6 .r4 (by decide), x6 .r5 (by decide)]
    rfl
  have hp : s9.params = s.params := by
    rw [e, State.entryPushed, State.pushedAll_frame]; rfl
  rw [hp] at hv
  obtain ⟨hlt, rfl⟩ := State.memRead_eq_ok.mp hv
  rw [hp] at hlt
  cases h
  exact ⟨hlt, by rw [e]⟩

/-- What interrupt entry can change: registers, IE, memory and the PC. -/
theorem State.enterInterrupt_frame {s t : State} {i : Fin 8} (h : s.enterInterrupt i = .ok t) :
    t = { s with regs := t.regs, ie := false, mem := t.mem, pc := t.pc } := by
  obtain ⟨_, rfl⟩ := State.enterInterrupt_eq_ok h
  rw [State.entryPushed, State.pushedAll_frame]
  rfl

/-- Interrupt entry keeps the canonical form of memory. -/
theorem State.enterInterrupt_wf {s t : State} {i : Fin 8} (h : s.enterInterrupt i = .ok t)
    (hw : s.mem.wf s.params.memSize = true) : t.mem.wf t.params.memSize = true := by
  obtain ⟨s1, h1, h⟩ := bind_eq_ok h
  obtain ⟨s2, h2, h⟩ := bind_eq_ok h
  obtain ⟨s3, h3, h⟩ := bind_eq_ok h
  obtain ⟨s4, h4, h⟩ := bind_eq_ok h
  obtain ⟨s5, h5, h⟩ := bind_eq_ok h
  obtain ⟨s6, h6, h⟩ := bind_eq_ok h
  obtain ⟨s7, h7, h⟩ := bind_eq_ok h
  obtain ⟨s8, h8, h⟩ := bind_eq_ok h
  obtain ⟨s9, h9, h⟩ := bind_eq_ok h
  obtain ⟨v, _, h⟩ := bind_eq_ok h
  have hw9 := State.push_wf h9 <| State.push_wf h8 <| State.push_wf h7 <| State.push_wf h6 <| State.push_wf h5 <|
    State.push_wf h4 <| State.push_wf h3 <| State.push_wf h2 <| State.push_wf h1 hw
  cases h
  exact hw9

/-- A push onto pushed values, where its address is in range. -/
theorem State.push_pushedAll_of_lt {s : State} {vs : List Nat} (v : Nat)
    (h : (s.x .sp - BitVec.ofNat 8 vs.length - 1).toNat < s.params.memSize) :
    (s.pushedAll vs).push v = .ok (s.pushedAll (vs ++ [v])) := by
  rw [State.push_of_lt, State.pushedAll_snoc]
  rw [State.pushAddr, State.pushedAll_x_sp, State.pushedAll_frame]
  exact h

/-- Interrupt entry succeeds where its nine pushes and its vector read are in range. -/
theorem State.enterInterrupt_of_lt {s : State} {i : Fin 8}
    (h : ∀ k < 9, (s.x .sp - 1 - BitVec.ofNat 8 k).toNat < s.params.memSize)
    (hv : s.params.vectorBase + i.val < s.params.memSize) :
    s.enterInterrupt i =
      .ok { s.entryPushed i with pc := ((s.entryPushed i).byteAt (s.params.vectorBase + i.val)).toNat } := by
  have hk : ∀ (vs : List Nat) (v : Nat), vs.length < 9 →
      ((s.entryStart i).pushedAll vs).push v = .ok ((s.entryStart i).pushedAll (vs ++ [v])) := by
    intro vs v hl
    refine State.push_pushedAll_of_lt v ?_
    rw [State.entryStart_x s i (by decide)]
    have e : s.x .sp - BitVec.ofNat 8 vs.length - 1 = s.x .sp - 1 - BitVec.ofNat 8 vs.length := by bv_omega
    rw [e]
    exact h vs.length hl
  have hx : ∀ (vs : List Nat) (r : Reg), r ≠ .sp → r ≠ .is →
      ((s.entryStart i).pushedAll vs).x r = s.x r := fun vs r h1 h2 =>
    (State.pushedAll_x _ vs h1).trans (State.entryStart_x s i h2)
  have hx6 : ∀ (vs : List Nat), ((s.entryStart i).pushedAll vs).x .r6 = s.x .is &&& ~~~(1#8 <<< i.val) := fun vs =>
    (State.pushedAll_x _ vs (by decide)).trans (State.x_setX_same s .is _)
  have hr : ∀ (vs : List Nat) (r : Reg), r ≠ .sp → r ≠ .is → vs.length < 9 →
      ((s.entryStart i).pushedAll vs).pushReg r = .ok ((s.entryStart i).pushedAll (vs ++ [(s.x r).toNat])) :=
    fun vs r h1 h2 hl => by rw [State.pushReg, hx vs r h1 h2]; exact hk vs _ hl
  have hfl : ((s.entryStart i).pushedAll [s.pc]).fl = s.fl := rfl
  have e0 : s.enterInterrupt i = (((s.entryStart i).pushedAll []).push s.pc >>= fun s => do
      let s ← s.push s.fl.toByte.toNat
      let s ← s.pushReg .r0
      let s ← s.pushReg .r1
      let s ← s.pushReg .r2
      let s ← s.pushReg .r3
      let s ← s.pushReg .r4
      let s ← s.pushReg .r5
      let s ← s.pushReg .r6
      let target ← s.memRead (s.params.vectorBase + i.val)
      pure { s with pc := target.toNat }) := rfl
  rw [e0, hk _ _ (by simp), ok_bind, List.nil_append, hfl, hk _ _ (by simp), ok_bind,
    hr _ .r0 (by decide) (by decide) (by simp), ok_bind, hr _ .r1 (by decide) (by decide) (by simp), ok_bind,
    hr _ .r2 (by decide) (by decide) (by simp), ok_bind, hr _ .r3 (by decide) (by decide) (by simp), ok_bind,
    hr _ .r4 (by decide) (by decide) (by simp), ok_bind, hr _ .r5 (by decide) (by decide) (by simp), ok_bind,
    State.pushReg, hx6, hk _ _ (by simp), ok_bind]
  have e9 : (s.entryStart i).pushedAll ([s.pc] ++ [s.fl.toByte.toNat] ++ [(s.x .r0).toNat] ++ [(s.x .r1).toNat] ++
      [(s.x .r2).toNat] ++ [(s.x .r3).toNat] ++ [(s.x .r4).toNat] ++ [(s.x .r5).toNat] ++
      [(s.x .is &&& ~~~(1#8 <<< i.val)).toNat]) = s.entryPushed i := rfl
  rw [e9]
  have hp : (s.entryPushed i).params = s.params := by rw [State.entryPushed, State.pushedAll_frame]; rfl
  rw [State.memRead_of_lt (by rw [hp]; exact hv), ok_bind, pure_eq_ok, hp]
  rw [← hp]

/-! ## Return from interrupt -/

/-- The byte IRET's pop number `k` reads. -/
def State.popByte (s : State) (k : Nat) : Byte :=
  s.byteAt (s.x .sp + BitVec.ofNat 8 k).toNat

/-- The state a return from an interrupt makes when it succeeds. -/
def State.returned (s : State) : State :=
  { s with
    regs := ⟨s.popByte 6, s.popByte 5, s.popByte 4, s.popByte 3, s.popByte 2, s.popByte 1, s.popByte 0,
      s.x .sp + 9⟩
    fl := Flags.ofByte (s.popByte 7)
    pc := (s.popByte 8).toNat
    ie := true }

/-- The state after a pop into `r` from a state that differs from `s` only in its registers. -/
theorem State.popReg_regs {s t : State} {f : RegFile} {r : Reg} {k : Nat}
    (hf : f.r7 = s.x .sp + BitVec.ofNat 8 k) (h : ({ s with regs := f } : State).popReg r = .ok t) :
    t = { s with regs := (f.set .sp (s.x .sp + BitVec.ofNat 8 (k + 1))).set r (s.popByte k) } := by
  obtain ⟨_, rfl⟩ := State.popReg_eq_ok.mp h
  have h1 : ({ s with regs := f } : State).x .sp = s.x .sp + BitVec.ofNat 8 k := hf
  rw [h1]
  have h2 : s.x .sp + BitVec.ofNat 8 k + 1 = s.x .sp + BitVec.ofNat 8 (k + 1) := by bv_omega
  rw [h2]
  rfl

/-- What the return from an interrupt leaves when it succeeds: the nine popped bytes in their places. -/
theorem State.returnFromInterrupt_eq_ok {s : State} {k : Handled} (h : s.returnFromInterrupt = .ok k) :
    k = ⟨s.returned, true⟩ := by
  obtain ⟨s1, h1, h⟩ := bind_eq_ok h
  obtain ⟨s2, h2, h⟩ := bind_eq_ok h
  obtain ⟨s3, h3, h⟩ := bind_eq_ok h
  obtain ⟨s4, h4, h⟩ := bind_eq_ok h
  obtain ⟨s5, h5, h⟩ := bind_eq_ok h
  obtain ⟨s6, h6, h⟩ := bind_eq_ok h
  obtain ⟨s7, h7, h⟩ := bind_eq_ok h
  obtain ⟨⟨f, s8⟩, h8, h⟩ := bind_eq_ok h
  obtain ⟨⟨v, s9⟩, h9, h⟩ := bind_eq_ok h
  have e1 := State.popReg_regs (s := s) (f := s.regs) (k := 0) (by simp; rfl) h1
  rw [e1] at h2
  have e2 := State.popReg_regs rfl h2
  rw [e2] at h3
  have e3 := State.popReg_regs rfl h3
  rw [e3] at h4
  have e4 := State.popReg_regs rfl h4
  rw [e4] at h5
  have e5 := State.popReg_regs rfl h5
  rw [e5] at h6
  have e6 := State.popReg_regs rfl h6
  rw [e6] at h7
  have e7 := State.popReg_regs rfl h7
  have x7 : s7.x .sp = s.x .sp + 7#8 := by rw [e7]; rfl
  have m7 : ∀ a, s7.byteAt a = s.byteAt a := fun a => by rw [e7]; rfl
  obtain ⟨_, rfl, rfl⟩ := State.pop_eq_ok.mp h8
  obtain ⟨_, rfl, rfl⟩ := State.pop_eq_ok.mp h9
  cases h
  have x8 : (State.x { s7.setX .sp (s7.x .sp + 1) with fl := Flags.ofByte (s7.byteAt (s7.x .sp).toNat) } .sp)
      = s.x .sp + 8#8 := by
    show s7.x .sp + 1 = _
    rw [x7]; bv_omega
  have m8 : ∀ a, State.byteAt { s7.setX .sp (s7.x .sp + 1) with fl := Flags.ofByte (s7.byteAt (s7.x .sp).toNat) } a
      = s.byteAt a := m7
  have x9 : s.x .sp + 8#8 + 1 = s.x .sp + 9 := by bv_omega
  rw [x8, m8, m7, x7, x9, e7]
  rfl

/-- A pop into `r` where its address is in range. -/
theorem State.popReg_regs_of_lt {s : State} {f : RegFile} (r : Reg) {k : Nat}
    (hf : f.r7 = s.x .sp + BitVec.ofNat 8 k) (h : (s.x .sp + BitVec.ofNat 8 k).toNat < s.params.memSize) :
    ({ s with regs := f } : State).popReg r =
      .ok { s with regs := (f.set .sp (s.x .sp + BitVec.ofNat 8 (k + 1))).set r (s.popByte k) } := by
  have h1 : ({ s with regs := f } : State).x .sp = s.x .sp + BitVec.ofNat 8 k := hf
  have h2 := State.popReg_eq_ok (s := { s with regs := f }) (r := r) |>.mpr ⟨by rw [h1]; exact h, rfl⟩
  rw [h2]
  exact congrArg Except.ok (State.popReg_regs hf h2)

/-- A pop into `r` where its address is out of range. -/
theorem State.popReg_regs_of_ge {s : State} {f : RegFile} (r : Reg) {k : Nat}
    (hf : f.r7 = s.x .sp + BitVec.ofNat 8 k) (h : s.params.memSize ≤ (s.x .sp + BitVec.ofNat 8 k).toNat) :
    ({ s with regs := f } : State).popReg r =
      .error (.memoryOutOfRange (s.x .sp + BitVec.ofNat 8 k).toNat) := by
  have h1 : ({ s with regs := f } : State).x .sp = s.x .sp + BitVec.ofNat 8 k := hf
  have h2 : State.memRead { s with regs := f } (s.x .sp + BitVec.ofNat 8 k).toNat =
      .error (.memoryOutOfRange (s.x .sp + BitVec.ofNat 8 k).toNat) := State.memRead_of_ge h
  simp only [State.popReg, State.pop, h1, h2, error_bind]

/-- The return from an interrupt succeeds where its nine pops are in range. -/
theorem State.returnFromInterrupt_of_lt {s : State}
    (h : ∀ k < 9, (s.x .sp + BitVec.ofNat 8 k).toNat < s.params.memSize) :
    s.returnFromInterrupt = .ok ⟨s.returned, true⟩ := by
  have hp : ∀ (f : RegFile) (fl : Flags) (k : Nat), k < 9 → f.r7 = s.x .sp + BitVec.ofNat 8 k →
      State.pop { s with regs := f, fl := fl } =
        .ok (s.popByte k, { s with regs := f.set .sp (s.x .sp + BitVec.ofNat 8 (k + 1)), fl := fl }) := by
    intro f fl k hk hf
    have h1 : State.x { s with regs := f, fl := fl } .sp = s.x .sp + BitVec.ofNat 8 k := hf
    refine State.pop_eq_ok.mpr ⟨by rw [h1]; exact h k hk, by rw [h1]; rfl, ?_⟩
    rw [h1]
    have h2 : s.x .sp + BitVec.ofNat 8 k + 1 = s.x .sp + BitVec.ofNat 8 (k + 1) := by bv_omega
    rw [h2]
    rfl
  unfold State.returnFromInterrupt
  have e1 := State.popReg_regs_of_lt (s := s) (f := s.regs) .r6 (k := 0) (by simp; rfl) (h 0 (by decide))
  change s.popReg .r6 = _ at e1
  rw [e1, ok_bind, State.popReg_regs_of_lt .r5 rfl (h 1 (by decide)), ok_bind,
    State.popReg_regs_of_lt .r4 rfl (h 2 (by decide)), ok_bind,
    State.popReg_regs_of_lt .r3 rfl (h 3 (by decide)), ok_bind,
    State.popReg_regs_of_lt .r2 rfl (h 4 (by decide)), ok_bind,
    State.popReg_regs_of_lt .r1 rfl (h 5 (by decide)), ok_bind,
    State.popReg_regs_of_lt .r0 rfl (h 6 (by decide)), ok_bind, hp _ s.fl 7 (by decide) rfl, ok_bind]
  dsimp only
  rw [hp _ _ 8 (by decide) rfl, ok_bind]
  rfl

/-! ## Load -/

/-- Loading keeps the canonical form of memory. -/
theorem State.loadFrom_wf {s t : State} {k : Nat} {image : List Nat} (h : s.loadFrom k image = .ok t)
    (hw : s.mem.wf s.params.memSize = true) : t.mem.wf t.params.memSize = true := by
  induction image generalizing s k with
  | nil => cases h; exact hw
  | cons v image ih =>
    obtain ⟨u, hu, h⟩ := bind_eq_ok h
    exact ih h (State.memWrite_wf hu hw)

/-- Placing a table word keeps the canonical form of memory. -/
theorem State.withFetchWord_wf {s : State} (nbits w : Nat) (h3 : 3 ≤ s.params.memSize)
    (hw : s.mem.wf s.params.memSize = true) :
    (s.withFetchWord nbits w).mem.wf (s.withFetchWord nbits w).params.memSize = true := by
  have hp : s.fetchPc + 2 < s.params.memSize := by
    unfold State.fetchPc
    split <;> omega
  have h0 : s.fetchPc < s.params.memSize := by omega
  have h1 : s.fetchPc + 1 < s.params.memSize := by omega
  exact Memory.wf_poke _ (Memory.wf_poke _ (Memory.wf_poke _ hw h0) h1) hp

/-! ## Tick and step -/

/-- What an instruction's part of a tick can do: raise the first error of fetch or decode, or run the instruction. -/
theorem State.runInstruction_cases (s : State) :
    (∃ e, s.fetch = .error e ∧ s.runInstruction = .next (s.raise e)) ∨
    (∃ f, s.fetch = .ok f ∧ decodeFetched s.params f.ir f.opA f.opB = none ∧
      s.runInstruction = .next (s.raise (.unknownOpcode f.ir))) ∨
    (∃ f i, s.fetch = .ok f ∧ decodeFetched s.params f.ir f.opA f.opB = some i ∧ s.runInstruction = exec i s) := by
  unfold State.runInstruction
  cases hf : s.fetch with
  | error e => exact .inl ⟨e, rfl, rfl⟩
  | ok f =>
    cases hd : decodeFetched s.params f.ir f.opA f.opB with
    | none => exact .inr (.inl ⟨f, rfl, hd, by simp [hd]⟩)
    | some i => exact .inr (.inr ⟨f, i, rfl, hd, by simp [hd]⟩)

/-- Everything a step can do, by status. -/
theorem step_cases {s t : State} (h : step s = .next t) :
    (s.status = .idle ∧ t = s.start) ∨
    (s.status = .halted ∧ t = s) ∨
    (s.status = .running ∧
      ((∃ e, t = s.raise e) ∨
       (∃ i, s.interruptToTake = some i ∧ s.enterInterrupt i = .ok t) ∨
       (∃ f i, s.interruptToTake = none ∧ s.fetch = .ok f ∧
          decodeFetched s.params f.ir f.opA f.opB = some i ∧ exec i s = .next t))) := by
  unfold step State.cycle at h
  cases hs : s.status with
  | idle => rw [hs] at h; cases h; exact .inl ⟨rfl, rfl⟩
  | halted => rw [hs] at h; cases h; exact .inr (.inl ⟨rfl, rfl⟩)
  | running =>
    rw [hs] at h
    refine .inr (.inr ⟨rfl, ?_⟩)
    simp only [State.tick] at h
    cases hi : s.interruptToTake with
    | some i =>
      rw [hi] at h
      rcases State.commit_cases s (s.enterInterrupt i) with ⟨u, hu, hc⟩ | ⟨e, _, hc⟩
      · simp only [hc] at h; cases h; exact .inr (.inl ⟨i, rfl, hu⟩)
      · simp only [hc] at h; cases h; exact .inl ⟨e, rfl⟩
    | none =>
      rw [hi] at h
      rcases State.runInstruction_cases s with ⟨e, _, hr⟩ | ⟨f, _, _, hr⟩ | ⟨f, i, hf, hd, hr⟩
      · simp only [hr] at h; cases h; exact .inl ⟨e, rfl⟩
      · simp only [hr] at h; cases h; exact .inl ⟨_, rfl⟩
      · simp only [hr] at h; exact .inr (.inr ⟨f, i, rfl, hf, hd, h⟩)

end Sys2Proof.Machine
end

