-- ==== Sys2Proof/Laws/Exec.lean ====
section
/-! SUPPORT. What an instruction can do, said once for all sixteen: the inversion of exec, which invariants and frames
are read off from. -/

namespace Sys2Proof.Machine

theorem exec_is_next (i : Instr) (s : State) : ∃ t, exec i s = .next t := by
  cases i
  case hlt => simp only [exec, execHlt]; exact State.dispatch_is_next _ _ _
  all_goals exact State.dispatch_is_next _ _ _

/-- `Ran s i t`: instruction `i` that raised no error in state `s` left state `t`. It bounds what an instruction
changes; the value a destination gets is said by the instruction's own equation where a claim needs it. -/
inductive Ran (s : State) : Instr → State → Prop
  /-- One register written, the PC advanced. -/
  | reg (i : Instr) (r : Reg) (v : Byte)
      (h : (∃ imm, i = .ldi r.index imm) ∨
        (∃ b, i = .mul r.index b ∨ i = .add r.index b ∨ i = .and r.index b ∨ i = .div r.index b) ∨
        i = .inc r.index ∨ i = .dec r.index) :
      Ran s i { s.setX r v with pc := s.pc + i.len s.params }
  | prn (r : Reg) : Ran s (.prn r.index) { s.emit (s.x r) with pc := s.pc + 2 }
  | hlt (pc : Nat) (h : pc = if s.params.hltAdvancesPc then s.pc + 1 else s.pc) :
      Ran s .hlt { s with status := .halted, err := none, pc := pc }
  | cmp (ra rb : Reg) :
      Ran s (.cmp ra.index rb.index) { s with fl := Flags.compare (s.x ra) (s.x rb), pc := s.pc + 3 }
  /-- A branch taken. -/
  | jmp (r : Reg) (i : Instr)
      (h : i = .jmp r.index ∨ (i = .jeq r.index ∧ s.fl.e = true) ∨ (i = .jne r.index ∧ s.fl.e = false)) :
      Ran s i { s with pc := (s.x r).toNat }
  /-- A branch not taken. -/
  | noJmp (r : Reg) (i : Instr)
      (h : (i = .jeq r.index ∧ s.fl.e = false) ∨ (i = .jne r.index ∧ s.fl.e = true)) :
      Ran s i { s with pc := s.pc + 2 }
  | call (r : Reg) (h : s.pushAddr < s.params.memSize) :
      Ran s (.call r.index)
        { s.pushed (s.pc + 2) with pc := ((s.pushed (s.pc + 2)).x r).toNat }
  | int (r : Reg) (v : Byte) : Ran s (.int r.index) { s.setX .is v with pc := s.pc + 2 }
  | iret : Ran s .iret s.returned

/-- Every alu operation but CMP gives a result and no flags. -/
theorem alu_result {op : AluOp} {va vb : Byte} {o : AluOut} (h : alu op va vb = .ok o) (hop : op ≠ .cmp) :
    ∃ v, o = ⟨some v, none⟩ := by
  cases op <;> simp [alu] at h hop ⊢
  all_goals first | exact ⟨_, h.symm⟩ | (split at h <;> simp at h; exact ⟨_, h.symm⟩)

/-- Everything an instruction can do: raise an error, or run. -/
theorem exec_cases {i : Instr} {s t : State} (h : exec i s = .next t) :
    (∃ e, t = s.raise e) ∨ Ran s i t := by
  cases i
  case ldi a imm =>
    rcases State.dispatch_next h with ⟨k, hk, rfl⟩ | ⟨e, _, rfl⟩
    · right
      obtain ⟨r, hr, hk⟩ := bind_eq_ok hk
      cases hk
      rcases checkReg_cases a with ⟨q, rfl, h1⟩ | ⟨_, h1⟩ <;> rw [h1] at hr <;> cases hr
      exact Ran.reg _ _ _ (.inl ⟨_, rfl⟩)
    · exact .inl ⟨_, rfl⟩
  case prn a =>
    rcases State.dispatch_next h with ⟨k, hk, rfl⟩ | ⟨e, _, rfl⟩
    · right
      obtain ⟨r, hr, hk⟩ := bind_eq_ok hk
      cases hk
      rcases checkReg_cases a with ⟨q, rfl, h1⟩ | ⟨_, h1⟩ <;> rw [h1] at hr <;> cases hr
      rw [State.advance_carryOn, Instr.len_prn]
      exact Ran.prn _
    · exact .inl ⟨_, rfl⟩
  case hlt =>
    right
    unfold exec execHlt at h
    by_cases hh : s.params.hltAdvancesPc
    · simp [hh] at h; subst h; exact Ran.hlt _ (by simp [hh])
    · simp [hh] at h; subst h; exact Ran.hlt _ (by simp [hh])
  case cmp a b =>
    rcases State.dispatch_next h with ⟨k, hk, rfl⟩ | ⟨e, _, rfl⟩
    · right
      obtain ⟨ra, rb, o, rfl, rfl, ho, rfl⟩ := State.aluTwo_eq_ok hk
      cases ho
      rw [State.advance_carryOn, Instr.len_cmp]
      exact Ran.cmp _ _
    · exact .inl ⟨_, rfl⟩
  case mul | add | and | div =>
    rcases State.dispatch_next h with ⟨k, hk, rfl⟩ | ⟨e, _, rfl⟩
    · right
      obtain ⟨ra, rb, o, rfl, rfl, ho, rfl⟩ := State.aluTwo_eq_ok hk
      obtain ⟨v, rfl⟩ := alu_result ho (by decide)
      rw [State.advance_carryOn]
      exact Ran.reg _ _ _ (by simp)
    · exact .inl ⟨_, rfl⟩
  case inc | dec =>
    rcases State.dispatch_next h with ⟨k, hk, rfl⟩ | ⟨e, _, rfl⟩
    · right
      obtain ⟨ra, o, rfl, ho, rfl⟩ := State.aluOne_eq_ok hk
      obtain ⟨v, rfl⟩ := alu_result ho (by decide)
      rw [State.advance_carryOn]
      exact Ran.reg _ _ _ (by simp)
    · exact .inl ⟨_, rfl⟩
  case jmp a =>
    rcases State.dispatch_next h with ⟨k, hk, rfl⟩ | ⟨e, _, rfl⟩
    · right
      obtain ⟨r, rfl, rfl⟩ := State.branch_eq_ok hk
      exact Ran.jmp r _ (.inl rfl)
    · exact .inl ⟨_, rfl⟩
  case jeq a =>
    rcases State.dispatch_next h with ⟨k, hk, rfl⟩ | ⟨e, _, rfl⟩
    · right
      obtain ⟨r, rfl, rfl⟩ := State.branch_eq_ok hk
      cases he : s.fl.e
      · simp; exact Ran.noJmp r _ (by simp [he])
      · simp; exact Ran.jmp r _ (by simp [he])
    · exact .inl ⟨_, rfl⟩
  case jne a =>
    rcases State.dispatch_next h with ⟨k, hk, rfl⟩ | ⟨e, _, rfl⟩
    · right
      obtain ⟨r, rfl, rfl⟩ := State.branch_eq_ok hk
      cases he : s.fl.e
      · simp; exact Ran.jmp r _ (by simp [he])
      · simp; exact Ran.noJmp r _ (by simp [he])
    · exact .inl ⟨_, rfl⟩
  case call a =>
    rcases State.dispatch_next h with ⟨k, hk, rfl⟩ | ⟨e, _, rfl⟩
    · right
      obtain ⟨r, hr, hk⟩ := bind_eq_ok hk
      obtain ⟨u, hu, hk⟩ := bind_eq_ok hk
      cases hk
      rcases checkReg_cases a with ⟨q, rfl, h1⟩ | ⟨_, h1⟩ <;> rw [h1] at hr <;> cases hr
      obtain ⟨hlt, rfl⟩ := State.push_eq_ok.mp hu
      exact Ran.call _ hlt
    · exact .inl ⟨_, rfl⟩
  case int a =>
    rcases State.dispatch_next h with ⟨k, hk, rfl⟩ | ⟨e, _, rfl⟩
    · right
      obtain ⟨_, hp, hk⟩ := bind_eq_ok hk
      obtain ⟨r, hr, hk'⟩ := bind_eq_ok hk
      rcases checkReg_cases a with ⟨q, rfl, h1⟩ | ⟨_, h1⟩ <;> rw [h1] at hr <;> cases hr
      replace hk := hk'
      clear hk'
      dsimp only [ok_bind] at hk
      split at hk
      · cases hk
      · cases hk
        rw [State.advance_carryOn, Instr.len_int]
        exact Ran.int _ _
    · exact .inl ⟨_, rfl⟩
  case iret =>
    rcases State.dispatch_next h with ⟨k, hk, rfl⟩ | ⟨e, _, rfl⟩
    · right
      obtain ⟨_, hp, hk⟩ := bind_eq_ok hk
      rw [State.returnFromInterrupt_eq_ok hk]
      exact Ran.iret
    · exact .inl ⟨_, rfl⟩

end Sys2Proof.Machine
end

