-- ==== Sys2Proof/Laws/PerInstr.lean ====
section
/-! SUPPORT. Facts about every instruction as syntax, one lemma per constructor. -/

namespace Sys2Proof.Laws.LengthField

/-- The bytes an encoding takes are as many as the length field of its opcode says, and at most three
(30_encoding.md R100, R111). -/
def Statement (i : Instr) : Prop :=
  ∀ p : Params, (encode p i).length = i.len p ∧ i.len p ≤ 3

theorem ldi (a imm : Byte) : Statement (.ldi a imm) := fun p => by simp [encode, Instr.operandBytes]
theorem prn (a : Byte) : Statement (.prn a) := fun p => by simp [encode, Instr.operandBytes]
theorem hlt : Statement .hlt := fun p => by simp [encode, Instr.operandBytes]
theorem mul (a b : Byte) : Statement (.mul a b) := fun p => by simp [encode, Instr.operandBytes]
theorem add (a b : Byte) : Statement (.add a b) := fun p => by simp [encode, Instr.operandBytes]
theorem and (a b : Byte) : Statement (.and a b) := fun p => by simp [encode, Instr.operandBytes]
theorem cmp (a b : Byte) : Statement (.cmp a b) := fun p => by simp [encode, Instr.operandBytes]
theorem inc (a : Byte) : Statement (.inc a) := fun p => by simp [encode, Instr.operandBytes]
theorem dec (a : Byte) : Statement (.dec a) := fun p => by simp [encode, Instr.operandBytes]
theorem div (a b : Byte) : Statement (.div a b) := fun p => by simp [encode, Instr.operandBytes]
theorem jmp (a : Byte) : Statement (.jmp a) := fun p => by simp [encode, Instr.operandBytes]
theorem jeq (a : Byte) : Statement (.jeq a) := fun p => by simp [encode, Instr.operandBytes]
theorem jne (a : Byte) : Statement (.jne a) := fun p => by simp [encode, Instr.operandBytes]
theorem call (a : Byte) : Statement (.call a) := fun p => by simp [encode, Instr.operandBytes]
theorem int (a : Byte) : Statement (.int a) := fun p => by simp [encode, Instr.operandBytes]
theorem iret : Statement .iret := fun p => by simp [encode, Instr.operandBytes]

end Sys2Proof.Laws.LengthField
end

