-- ==== Sys2Proof/Tests/Slice0.lean ====
section
/-! SUPPORT. The model's own tests. Expected results are the spec's: 95_test_vectors.md, the Example lines of the
instruction rules, and the Encoding lines for the words. The last part shows, for every statement of the obligations that
has hypotheses, states and operands that meet them. -/

open Sys2Proof Sys2Proof.Machine

namespace Sys2Proof.Tests

/-! ## Helpers -/

/-- The reference machine, started. -/
def base : State := State.reset.start

/-- Bytes stored from an address on. -/
def put (s : State) (a : Nat) : List Byte → State
  | [] => s
  | b :: bs => put { s with mem := s.mem.poke a b } (a + 1) bs

/-- Code stored at an address, and the PC there. -/
def code (s : State) (a : Nat) (bs : List Byte) : State := { put s a bs with pc := a }

/-- The state a step leaves. -/
def nextOf (s : State) : State :=
  match step s with
  | .next t => t
  | .fault _ => s
  | .refused _ => s

/-- The started machine with the smallest memory the bounds allow, and the vectors just below its end. -/
def small : State :=
  (State.resetWith { Params.reference with memSize := 0xF4, vectorBase := 0xEC } (by decide)).start

/-- The parameters with interrupts absent. -/
def absent : Params := { Params.reference with interrupts := false }

/-- What the tests look at: the PC, the status and the error record. -/
def endOf (s : State) : Nat × Status × Option ErrorRecord := ((nextOf s).pc, (nextOf s).status, (nextOf s).err)

/-! ## WellFormed: an ill-formed term for each check -/

theorem test_wf_int_absent : Instr.wellFormed absent (.int 1) = false := by decide
theorem test_wf_iret_absent : Instr.wellFormed absent .iret = false := by decide
theorem test_wf_first_index : Instr.wellFormed Params.reference (.mul 8 1) = false := by decide
theorem test_wf_second_index : Instr.wellFormed Params.reference (.mul 7 8) = false := by decide
theorem test_wf_one_index : Instr.wellFormed Params.reference (.jmp 255) = false := by decide
theorem test_wf_accepts : Instr.wellFormed Params.reference (.ldi 7 255) = true := by decide

/-! ## Decode: a word for every constructor, from its Encoding line -/

/-- What the reference decoder reads, with the count of bytes left. -/
def reads (bs : List Byte) : Option (Instr × Nat) :=
  match decode Params.reference bs with
  | .ok (i, rest) => some (i, rest.length)
  | .error _ => none

theorem test_word_ldi : reads [0b10011001#8, 0b00000011#8, 0b11110000#8, 0] = some (.ldi 3 0xF0, 1) := by decide
theorem test_word_prn : reads [0b01000011#8, 0b00000011#8, 9] = some (.prn 3, 1) := by decide
theorem test_word_hlt : reads [0b00000001#8, 9] = some (.hlt, 1) := by decide
theorem test_word_mul : reads [0b10101010#8, 0b00000100#8, 0b00000101#8] = some (.mul 4 5, 0) := by decide
theorem test_word_add : reads [0b10101000#8, 0b00000000#8, 0b00000001#8] = some (.add 0 1, 0) := by decide
theorem test_word_and : reads [0b10110011#8, 0b00000010#8, 0b00000011#8] = some (.and 2 3, 0) := by decide
theorem test_word_cmp : reads [0b10100000#8, 0b00000001#8, 0b00000010#8] = some (.cmp 1 2, 0) := by decide
theorem test_word_inc : reads [0b01111000#8, 0b00000111#8] = some (.inc 7, 0) := by decide
theorem test_word_dec : reads [0b01111001#8, 0b00000001#8] = some (.dec 1, 0) := by decide
theorem test_word_div : reads [0b10101011#8, 0b00000000#8, 0b00000001#8] = some (.div 0 1, 0) := by decide
theorem test_word_jmp : reads [0b01010000#8, 0b00000010#8] = some (.jmp 2, 0) := by decide
theorem test_word_jeq : reads [0b01010001#8, 0b00000011#8] = some (.jeq 3, 0) := by decide
theorem test_word_jne : reads [0b01010010#8, 0b00000011#8] = some (.jne 3, 0) := by decide
theorem test_word_call : reads [0b01001000#8, 0b00000001#8] = some (.call 1, 0) := by decide
theorem test_word_int : reads [0b01001010#8, 0b00000001#8] = some (.int 1, 0) := by decide
theorem test_word_iret : reads [0b00001011#8] = some (.iret, 0) := by decide

/-- 95_test_vectors.md section 2.1, the bytes that are unknown; and no bytes, and too few. -/
theorem test_word_unknown :
    [0x00#8, 0x53, 0x54, 0x98, 0xC0, 0xFF].map (fun b => reads [b, 0, 0]) = List.replicate 6 none ∧
    decodeKind absent 0x4A#8 = none ∧ decodeKind absent 0x0B#8 = none ∧
    reads [] = none ∧ reads [0x99, 1] = none := by decide

theorem test_table_word_ldi : decodeTableWord 24 0x0800_99 = some (.ldi 0 8) := by decide
theorem test_table_word_iret : decodeTableWord 8 0x0B = some .iret := by decide
/-- The table word of a short row: the bits above it are 0. -/
theorem test_table_word_short : decodeTableWord 8 0xFF99 = some (.ldi 0 0) := by decide
theorem test_encode : encode Params.reference (.ldi 0 8) = [0x99, 0x00, 0x08] := by decide

/-- A placed word is what the next step runs, right after reset. -/
theorem test_placed_word :
    (nextOf (State.reset.withFetchWord 24 0x0800_99)).x .r0 = 8 ∧
    (nextOf (State.reset.withFetchWord 24 0x0800_99)).pc = 3 := by decide
/-- A placed word runs where the PC leaves no room and an interrupt is pending. -/
theorem test_placed_word_elsewhere :
    nextOf (State.withFetchWord { (base.setX .r5 1).setX .r6 1 with pc := 255 } 8 0x01) =
      { State.withFetchWord { (base.setX .r5 1).setX .r6 1 with pc := 255 } 8 0x01 with status := .halted, pc := 1 } := by
  decide

/-! ## Memory, FL and the host -/

theorem test_memory_rising : (put base 3 [7, 0, 9]).mem = [(3, 7), (5, 9)] := by decide
theorem test_memory_zero_removes : ((base.mem.poke 3 7).poke 9 1).poke 3 0 = [(9, 1)] := by decide
theorem test_flag_byte : Flags.toByte ⟨false, false, true⟩ = 4 ∧ Flags.ofByte 0xFF = ⟨true, true, true⟩ := by decide
theorem test_load :
    (State.reset.load [0x99, 0, 264]).map (·.mem) = some [(0, 0x99), (2, 8)] ∧ base.load [1] = none := by decide
theorem test_printed : ({ base with out := [0, 255] } : State).printed = ["0", "255"] := by decide
/-- The bounds of 00_scope.md R7, at their edges. -/
theorem test_bounds :
    Params.legal { absent with memSize := 0xF4 } ∧ ¬ Params.legal { absent with memSize := 0xF3 } ∧
    ¬ Params.legal { Params.reference with memSize := 0xFF } := by decide
/-- 00_scope.md R2. -/
theorem test_hardware_name : hardwareName = "Computer-Architecture-One CORE, source spec v7" := rfl
/-- Reset, start: 70_reset_and_hazards.md R240, R243. -/
theorem test_start : (nextOf State.reset).status = .running ∧ (nextOf State.reset).x .sp = 0xF4 := by decide

/-! ## The instructions: 95_test_vectors.md sections 2.2 to 2.6 -/

theorem test_ldi_sp : (nextOf (code base 0 [0x99, 7, 0xFF])).x .sp = 0xFF := by decide
theorem test_ldi_bad : endOf (code base 3 [0x99, 8, 1]) = (3, .halted, some ⟨.badRegisterIndex, 3, some 8⟩) := by decide
theorem test_prn : (nextOf (code (base.setX .r3 255) 0 [0x43, 3])).out = [255] := by decide
theorem test_prn_bad : endOf (code base 0 [0x43, 200]) = (0, .halted, some ⟨.badRegisterIndex, 0, some 200⟩) := by
  decide
theorem test_hlt : endOf (code base 9 [0x01]) = (10, .halted, none) := by decide
theorem test_hlt_stays :
    endOf (code { base with params := { Params.reference with hltAdvancesPc := false } } 5 [0x01]) = (5, .halted, none) := by
  decide
theorem test_mul_wraps : (nextOf (code ((base.setX .r0 20).setX .r1 13) 0 [0xAA, 0, 1])).x .r0 = 4 := by decide
theorem test_mul_square : (nextOf (code (base.setX .r4 12) 0 [0xAA, 4, 4])).x .r4 = 144 := by decide
theorem test_add_wraps : (nextOf (code ((base.setX .r0 200).setX .r1 100) 0 [0xA8, 0, 1])).x .r0 = 44 := by decide
theorem test_add_bad : endOf (code base 0 [0xA8, 0, 9]) = (0, .halted, some ⟨.badRegisterIndex, 0, some 9⟩) := by decide
theorem test_and : (nextOf (code ((base.setX .r2 0xF0).setX .r3 0x3C) 0 [0xB3, 2, 3])).x .r2 = 0x30 := by decide
theorem test_cmp_unsigned :
    (nextOf (code ((base.setX .r1 0x80).setX .r2 0x7F) 0 [0xA0, 1, 2])).fl = ⟨false, true, false⟩ := by decide
theorem test_cmp_less :
    (nextOf (code ((base.setX .r1 0).setX .r2 4) 0 [0xA0, 1, 2])).fl = ⟨false, false, true⟩ := by decide
theorem test_inc_wraps : (nextOf (code (base.setX .r0 255) 0 [0x78, 0])).x .r0 = 0 := by decide
theorem test_dec_wraps : (nextOf (code base 0 [0x79, 1])).x .r1 = 255 := by decide
theorem test_dec_no_flag : (nextOf (code (base.setX .r1 1) 0 [0x79, 1])).fl = ⟨false, false, false⟩ := by decide
theorem test_div : (nextOf (code ((base.setX .r0 200).setX .r1 7) 0 [0xAB, 0, 1])).x .r0 = 28 := by decide
/-- The index check comes before the zero test. -/
theorem test_div_index_first :
    endOf (code base 0 [0xAB, 8, 1]) = (0, .halted, some ⟨.badRegisterIndex, 0, some 8⟩) := by decide
theorem test_jmp_self : (nextOf (code (base.setX .r2 7) 7 [0x50, 2])).pc = 7 := by decide
theorem test_jeq_not_taken : (nextOf (code (base.setX .r3 12) 20 [0x51, 3])).pc = 22 := by decide
theorem test_jeq_bad_not_taken :
    endOf (code base 0 [0x51, 8]) = (0, .halted, some ⟨.badRegisterIndex, 0, some 8⟩) := by decide
theorem test_jne_taken : (nextOf (code (base.setX .r3 12) 20 [0x52, 3])).pc = 12 := by decide
theorem test_call_wraps :
    (nextOf (code ((base.setX .r1 0x40).setX .sp 0) 0x10 [0x48, 1])).byteAt 0xFF = 0x12 ∧
    (nextOf (code ((base.setX .r1 0x40).setX .sp 0) 0x10 [0x48, 1])).pc = 0x40 := by decide
theorem test_call_sp :
    (nextOf (code base 0 [0x48, 7])).pc = 0xF3 ∧ (nextOf (code base 0 [0x48, 7])).byteAt 0xF3 = 2 := by decide
theorem test_int : (nextOf (code ((base.setX .r1 7).setX .r6 1) 0 [0x4A, 1])).x .is = 0x81 := by decide
theorem test_int_bad :
    endOf (code (base.setX .r1 8) 0 [0x4A, 1]) = (0, .halted, some ⟨.badInterruptNumber, 0, some 8⟩) := by decide
/-- 95_test_vectors.md section 2.6, IRET. -/
theorem test_iret :
    let s := nextOf (code (put (base.setX .sp 0xEB) 0xEB [0x0C, 6, 0, 0, 0, 0, 0, 4, 0x30]) 0 [0x0B])
    s.regs = ⟨0, 0, 0, 0, 0, 6, 0x0C, 0xF4⟩ ∧ s.fl = ⟨false, false, true⟩ ∧ s.pc = 0x30 ∧ s.ie = true := by decide

/-! ## The tick -/

theorem test_pc_past_the_end :
    endOf (code (base.setX .r0 1) 0xFD [0xA8, 0, 0]) = (0x100, .running, none) ∧
    endOf { base with pc := 0x100 } = (0x100, .halted, some ⟨.memoryOutOfRange, 0x100, some 0x100⟩) := by decide
theorem test_hlt_at_the_end :
    endOf (code base 0xFE [0x01]) = (0xFE, .halted, some ⟨.memoryOutOfRange, 0xFE, some 0x100⟩) ∧
    endOf (code base 0xFF [0xC5]) = (0xFF, .halted, some ⟨.memoryOutOfRange, 0xFF, some 0x100⟩) := by decide
theorem test_unknown : endOf (code base 0 [0xFF]) = (0, .halted, some ⟨.unknownOpcode, 0, some 0xFF⟩) := by decide

/-- Two interrupts pending and enabled: 95_test_vectors.md section 2.6, entry. -/
def pending : State :=
  { put ((base.setX .r5 6).setX .r6 0x0E) 0xF9 [0x60] with pc := 0x30, fl := ⟨false, false, true⟩ }

theorem test_entry :
    let s := nextOf pending
    s.regs = ⟨0, 0, 0, 0, 0, 6, 0x0C, 0xEB⟩ ∧ s.ie = false ∧ s.pc = 0x60 ∧
    s.mem = [(0xEB, 0x0C), (0xEC, 6), (0xF2, 4), (0xF3, 0x30), (0xF9, 0x60)] := by decide
/-- Nothing enabled, and IE clear: no entry. -/
theorem test_no_entry :
    (base.setX .r6 0xFF).interruptToTake = none ∧
    ({ (base.setX .r5 1).setX .r6 1 with ie := false } : State).interruptToTake = none := by decide

/-! ## The hypotheses of the statements are met -/

theorem witness_EveryStepKeepsTheInvariant :
    (code base 0 [0x48, 1]).Inv ∧ pending.Inv ∧ State.reset.Inv ∧ small.Inv ∧
    step (code base 0 [0x48, 1]) = .next (nextOf (code base 0 [0x48, 1])) ∧ step pending = .next (nextOf pending) :=
  ⟨by decide, by decide, by decide, by decide, rfl, rfl⟩

theorem witness_NoStepChangesTheParameters : step pending = .next (nextOf pending) := rfl

theorem witness_RunStateMachine :
    State.reset.status = .idle ∧ step State.reset = .next (nextOf State.reset) ∧
    pending.status = .running ∧ step pending = .next (nextOf pending) ∧
    (nextOf (code base 9 [1])).status = .halted ∧
    step (nextOf (code base 9 [1])) = .next (nextOf (code base 9 [1])) :=
  ⟨rfl, rfl, rfl, rfl, rfl, rfl⟩

theorem witness_HaltedIsTerminal : (nextOf (code base 9 [1])).status = .halted := rfl

/-- HLT, an error of an instruction, and an error of an interrupt entry. -/
theorem witness_OnlyHltAndFatalErrorsHalt :
    ∀ s ∈ [code base 9 [1], code base 0 [0xFF], { small.setX .r5 1 with regs := ⟨0, 0, 0, 0, 0, 1, 1, 0⟩ }],
      s.status = .running ∧ (nextOf s).status = .halted := by decide

theorem witness_FailingTickCommitsNothingElse :
    base.status = .running ∧ base.err = none ∧ step base = .next (nextOf base) ∧ (nextOf base).failed = true :=
  ⟨rfl, rfl, rfl, rfl⟩

theorem witness_DecodeOfEncodeIsTheInstruction :
    Instr.present Params.reference .iret = true ∧ Instr.present absent (.ldi 255 255) = true := by decide

theorem witness_DecodedBytesAreTheEncoding :
    decode Params.reference [0x4A, 1, 2] = .ok (.int 1, [2]) ∧ decode absent [0x01] = .ok (.hlt, []) := ⟨rfl, rfl⟩

theorem witness_UnknownOpcodeBytes : 0xC0 ≤ (0xC0#8).toNat ∧ 0xC0 ≤ (0xFF#8).toNat := by decide

theorem witness_LengthFieldGivesTheLength :
    decode Params.reference (0x01#8 :: []) = .ok (.hlt, []) ∧
    decode Params.reference (0x43#8 :: [200]) = .ok (.prn 200, []) ∧
    decode Params.reference (0x99#8 :: [0, 255, 7]) = .ok (.ldi 0 255, [7]) := ⟨rfl, rfl, rfl⟩

theorem witness_AbsentInterruptsAreUnknown : (State.resetWith absent (by decide)).params.interrupts = false := rfl

theorem witness_MemoryPortContract :
    0 < base.params.memSize ∧ 255 < base.params.memSize ∧ base.params.memSize ≤ 256 := by decide

theorem witness_EqualReadsMeanEqualMemories :
    Memory.wf 256 [(0, 1), (255, 0xFF)] = true ∧ Memory.wf 256 ((Memory.poke [] 255 0xFF).poke 0 1) = true ∧
    ∀ a, Memory.peek [(0, 1), (255, 0xFF)] a = Memory.peek ((Memory.poke [] 255 0xFF).poke 0 1) a :=
  ⟨by decide, by decide, fun _ => rfl⟩

theorem witness_RegisterWriteThenRead : Reg.r6 ≠ Reg.sp := by decide

/-- A push in range at SP = 0 (it writes 255), and one just out of range. -/
theorem witness_PushDecrementsThenWrites :
    (base.setX .sp 0).pushAddr < (base.setX .sp 0).params.memSize ∧
    (small.setX .sp 0xF5).params.memSize ≤ (small.setX .sp 0xF5).pushAddr ∧
    small.pushAddr < small.params.memSize := by decide

theorem witness_PopUndoesPush :
    (base.setX .sp 0).push 300 = .ok { base.setX .sp 255 with mem := [(255, 44)] } := rfl

/-- The clauses of LDI, PRN, MUL, ADD, AND, CMP, INC, DEC, DIV, JMP, JEQ, JNE, CALL and INT for an index of 8 or more. -/
theorem witness_BadIndexClauses : 8 ≤ (8#8).toNat ∧ 8 ≤ (255#8).toNat := by decide

theorem witness_IncrementDecrementRules :
    exec (.inc Reg.r0.index) (base.setX .r0 255) = .next { base with pc := 2 } ∧
    exec (.dec Reg.r0.index) { base with pc := 2 } = .next { base.setX .r0 255 with pc := 4 } ∧
    exec (.inc Reg.r0.index) { base.setX .r0 255 with pc := 4 } = .next { base with pc := 6 } := ⟨rfl, rfl, rfl⟩

theorem witness_DivideRule : (base.setX .r1 1).x .r1 ≠ 0 ∧ base.x .r1 = 0 := by decide

theorem witness_ConditionalJumpRules :
    ({ base with fl := ⟨true, false, false⟩ } : State).fl.e = true ∧ base.fl.e = false := by decide

theorem witness_CallRule :
    base.pushAddr < base.params.memSize ∧ (small.setX .sp 0).params.memSize ≤ (small.setX .sp 0).pushAddr := by decide

theorem witness_RaiseInterruptRule :
    base.params.interrupts = true ∧ ((base.setX .r1 7).x .r1).toNat < 8 ∧ 8 ≤ ((base.setX .r1 8).x .r1).toNat := by
  decide

/-- The nine pops at the reset SP, and nine that wrap. -/
theorem witness_InterruptReturnRule :
    base.params.interrupts = true ∧
    (∀ k < 9, (base.x .sp + BitVec.ofNat 8 k).toNat < base.params.memSize) ∧
    (∀ k < 9, ((base.setX .sp 0xFC).x .sp + BitVec.ofNat 8 k).toNat < (base.setX .sp 0xFC).params.memSize) := by decide

/-- The first, a middle and the last pop out of range. -/
theorem witness_InterruptReturnOutOfRange :
    ∀ p ∈ [(0xF4#8, 0), (0xF0#8, 4), (0xEC#8, 8)],
      (small.setX .sp p.1).params.interrupts = true ∧
      (∀ j < p.2, ((small.setX .sp p.1).x .sp + BitVec.ofNat 8 j).toNat < (small.setX .sp p.1).params.memSize) ∧
      (small.setX .sp p.1).params.memSize ≤ ((small.setX .sp p.1).x .sp + BitVec.ofNat 8 p.2).toNat := by decide

/-- The first operand bad (and the second too), the second bad alone. -/
theorem witness_FirstBadRegisterIndexIsRaised :
    (Instr.mul 8 9).present base.params = true ∧
    (Instr.mul 8 9).regOperands.find? (fun a => decide (8 ≤ a.toNat)) = some 8 ∧
    (Instr.div 7 255).regOperands.find? (fun a => decide (8 ≤ a.toNat)) = some 255 := by decide

/-- exec answers next for a form of each kind the frames tell apart. -/
theorem witness_Frames :
    exec (.add 0 1) base = .next { base with pc := 3 } ∧ exec (.prn 0) base = .next { base with out := [0], pc := 2 } ∧
    exec (.call 1) base = .next { base.setX .sp 0xF3 with mem := [(0xF3, 2)] } ∧
    exec (.int 1) base = .next { base.setX .is 1 with pc := 2 } ∧
    exec .iret base = .next { base.setX .sp 0xFD with pc := 0 } ∧
    exec .hlt base = .next { base with status := .halted, pc := 1 } := ⟨rfl, rfl, rfl, rfl, rfl, rfl⟩

theorem witness_OnlyCompareAndReturnWriteFlags :
    step (code base 0 [0xA0, 0, 0]) = .next (nextOf (code base 0 [0xA0, 0, 0])) ∧
    (nextOf (code base 0 [0xA0, 0, 0])).fl ≠ (code base 0 [0xA0, 0, 0]).fl ∧
    exec (.cmp Reg.r0.index Reg.r1.index) base = .next { base with fl := ⟨true, false, false⟩, pc := 3 } ∧
    exec .iret base = .next { base.setX .sp 0xFD with pc := 0 } ∧
    (∀ e, { base.setX .sp 0xFD with pc := 0 } ≠ base.raise e) :=
  ⟨rfl, by decide, rfl, rfl, fun e h => nomatch congrArg State.status h⟩

theorem witness_OnlyPrintExtendsTheOutput : step (code base 0 [0x43, 7]) = .next (nextOf (code base 0 [0x43, 7])) := rfl

theorem witness_ProgramCounterAdvance :
    exec (.jeq Reg.r0.index) base = .next { base with pc := 2 } ∧
    (∀ e, { base with pc := 2 } ≠ base.raise e) ∧ base.fl.e = false ∧
    exec (.jne Reg.r0.index) { base with fl := ⟨true, false, false⟩ } =
      .next { base with fl := ⟨true, false, false⟩, pc := 2 } ∧
    exec .hlt base = .next { base with status := .halted, pc := 1 } ∧
    (∀ e, { base with status := .halted, pc := 1 } ≠ base.raise e) ∧ base.params.hltAdvancesPc = true :=
  ⟨rfl, fun e h => (by decide : (2 : Nat) ≠ 0) (congrArg State.pc h), rfl, rfl, rfl,
    fun e h => (by decide : (1 : Nat) ≠ 0) (congrArg State.pc h), rfl⟩

/-- The last PC at which a fetch succeeds. -/
theorem witness_StepRunsTheDecodedInstruction :
    let s := code base 0xFD [0xA8, 0, 1]
    s.status = .running ∧ s.interruptToTake = none ∧ s.pc + 2 < s.params.memSize ∧
    decodeFetched s.params (s.byteAt s.pc) (s.byteAt (s.pc + 1)) (s.byteAt (s.pc + 2)) = some (.add 0 1) := by decide

/-- Each clause at its boundary: PC 253, 254, 255, 256. -/
theorem witness_FetchErrorsInOrder :
    base.status = .running ∧ base.interruptToTake = none ∧ base.params.memSize ≤ 256 ∧
    (255 < base.params.memSize ∧ base.params.memSize ≤ 255 + 1) ∧
    (254 + 1 < base.params.memSize ∧ base.params.memSize ≤ 254 + 2) ∧
    (253 + 2 < base.params.memSize ∧ decodeKind base.params (base.byteAt 253) = none) := by decide

/-- SP such that the pushed byte is the last address a fetch succeeds at. -/
theorem witness_CallThroughStackPointerFetchesThePushedByte :
    (base.setX .sp 0xFE).pushAddr + 2 < (base.setX .sp 0xFE).params.memSize ∧
    exec (.call Reg.sp.index) (base.setX .sp 0xFE) =
      .next { base.setX .sp 0xFD with mem := [(0xFD, 2)], pc := 0xFD } := ⟨by decide, rfl⟩

theorem witness_InterruptEntryRule :
    pending.status = .running ∧ pending.interruptToTake = some 1 ∧
    (∀ k < 9, (pending.x .sp - 1 - BitVec.ofNat 8 k).toNat < pending.params.memSize) ∧
    pending.params.vectorBase + (1 : Fin 8).val < pending.params.memSize := by decide

/-- The parameters at their bounds, with interrupts present and absent. -/
theorem witness_ResetStatements :
    Params.reference.legal ∧ Params.legal { absent with memSize := 0xF4 } ∧ small.params.legal := by decide

/-- The small machine with interrupt 0 pending and enabled and SP as given. -/
def smallPending (sp : Byte) : State := ((small.setX .r5 1).setX .r6 1).setX .sp sp

/-- The same with the vectors moved out of memory, outside the bounds of 00_scope.md R7: no run reaches it. -/
def vectorsOutside : State :=
  { smallPending 0xF4 with params := { small.params with vectorBase := 0xF4 } }

/-- The first push (SP = 0) and the last push (SP = 8) out of range; nine good pushes and a vector out of range. -/
theorem witness_InterruptEntryOutOfRange :
    (∀ p ∈ [(0#8, 0), (8#8, 8)],
      (smallPending p.1).status = .running ∧ (smallPending p.1).interruptToTake = some 0 ∧
      (∀ j < p.2, ((smallPending p.1).x .sp - 1 - BitVec.ofNat 8 j).toNat < (smallPending p.1).params.memSize) ∧
      (smallPending p.1).params.memSize ≤ ((smallPending p.1).x .sp - 1 - BitVec.ofNat 8 p.2).toNat) ∧
    vectorsOutside.status = .running ∧ vectorsOutside.interruptToTake = some 0 ∧
    (∀ k < 9, (vectorsOutside.x .sp - 1 - BitVec.ofNat 8 k).toNat < vectorsOutside.params.memSize) ∧
    vectorsOutside.params.memSize ≤ vectorsOutside.params.vectorBase + (0 : Fin 8).val := by decide

/-- The reset SP of the smallest memory, the last vector, and an entry whose first push fails. -/
theorem witness_BoundsKeepStackAndVectorsInMemory :
    small.params.legal ∧ small.x .sp = spInit ∧
    (State.setX (small.setX .r5 0x80) .r6 0x80).interruptToTake = some 7 ∧
    (smallPending 0).status = .running ∧ (smallPending 0).interruptToTake = some 0 ∧
    step (smallPending 0) = .next ((smallPending 0).raise (.memoryOutOfRange 255)) :=
  ⟨by decide, by decide, by decide, by decide, by decide, rfl⟩

/-- A handler that changes R0, FL, the output, another byte of memory and the PC. -/
def handled : State :=
  { (nextOf pending).setX .r0 99 with
    fl := ⟨true, true, true⟩, out := [1], pc := 0x61, mem := (nextOf pending).mem.poke 0 7 }

theorem witness_ReturnRestoresTheInterruptedProgram :
    step pending = .next (nextOf pending) ∧
    handled.params = (nextOf pending).params ∧ handled.x .sp = (nextOf pending).x .sp ∧
    (∀ k < 9, handled.byteAt ((nextOf pending).x .sp + BitVec.ofNat 8 k).toNat =
      (nextOf pending).byteAt ((nextOf pending).x .sp + BitVec.ofNat 8 k).toNat) := ⟨rfl, by decide⟩

/-- A step with IE clear, one that sets IE, one that clears it. -/
theorem witness_InterruptsNeverNest :
    let s := code { base with ie := false } 0 [0x0B]
    step s = .next (nextOf s) ∧ s.ie = false ∧ (nextOf s).ie = true ∧
    step pending = .next (nextOf pending) ∧ pending.ie = true ∧ (nextOf pending).ie = false :=
  ⟨rfl, rfl, by decide, rfl, rfl, by decide⟩

/-- An image that just fits, one byte too many, and a machine that is not Idle. -/
theorem witness_LoadPlacesTheImage :
    State.reset.status = .idle ∧ (List.replicate 256 1).length ≤ State.reset.params.memSize ∧
    State.reset.params.memSize < (List.replicate 257 1).length ∧ base.status ≠ .idle :=
  ⟨rfl, by rw [List.length_replicate]; decide, by rw [List.length_replicate]; decide, by decide⟩

end Sys2Proof.Tests
end

section
/-! PROOFS. The statements of 10_state.md on reset, register writes, the push and the output. -/

namespace Sys2Proof.Machine

/-! ## Reset -/

theorem RegFile.get_reset (r : Reg) : RegFile.reset.get r = if r = .sp then 0xF4#8 else 0 := by
  cases r <;> rfl

@[simp] theorem State.resetWith_out (p : Params) (h : p.legal) : (State.resetWith p h).out = [] := rfl

/-- Settles O1, field by field. -/
theorem resetHoldsStatedValues : Obligations.ResetHoldsStatedValues := by
  intro p h
  exact ⟨RegFile.get_reset, State.resetWith_pc p h, State.resetWith_status p h, State.resetWith_err p h,
    State.resetWith_out p h, Memory.peek_nil⟩

/-! ## Register writes -/

theorem State.x_setX_other (s : State) {r q : Reg} (v : Byte) (h : q ≠ r) : (s.setX r v).x q = s.x q :=
  RegFile.get_set_other s.regs v h

/-- A register write changes nothing but the register file. -/
theorem State.setX_frame (s : State) (r : Reg) (v : Byte) : s.setX r v = { s with regs := (s.setX r v).regs } := rfl

/-- Settles O21: what a register holds after a write to it and to another, and the frame of the write. -/
theorem registerWriteThenRead : Obligations.RegisterWriteThenRead := by
  intro s r q v
  refine ⟨?_, State.x_setX_other s _, State.setX_frame s r _⟩
  rw [State.x_setX_same, BitVec.toNat_ofNat]

/-! ## The push -/

/-- The decremented SP, written as a sum so that the wrap at 0 shows (10_state.md R44). -/
theorem State.pushAddr_eq_mod (s : State) : s.pushAddr = ((s.x .sp).toNat + 255) % 256 := by
  rw [State.pushAddr, BitVec.toNat_sub, Nat.add_comm]
  rfl

theorem State.pushed_x_sp_toNat (s : State) (v : Nat) : ((s.pushed v).x .sp).toNat = s.pushAddr :=
  congrArg BitVec.toNat (State.pushed_x_sp s v)

theorem State.byteAt_pushed_pushAddr (s : State) (v : Nat) : (s.pushed v).byteAt s.pushAddr = BitVec.ofNat 8 v :=
  Memory.peek_poke_same s.mem s.pushAddr _

theorem State.byteAt_pushed_other (s : State) (v : Nat) {a : Nat} (h : a ≠ s.pushAddr) :
    (s.pushed v).byteAt a = s.byteAt a :=
  Memory.peek_poke_other s.mem _ h

/-- A push changes nothing but the register file and memory. -/
theorem State.pushed_frame (s : State) (v : Nat) :
    s.pushed v = { s with regs := (s.pushed v).regs, mem := (s.pushed v).mem } := rfl

/-- Settles O22: in range a push makes `s.pushed v`, whose registers and bytes the lemmas above say; out of range its
write fails. -/
theorem pushDecrementsThenWrites : Obligations.PushDecrementsThenWrites := by
  intro s v
  refine ⟨fun hlt => ?_, State.push_of_ge v⟩
  have hsp := State.pushed_x_sp_toNat s v
  exact ⟨s.pushed v, State.push_of_lt v hlt, hsp.trans (State.pushAddr_eq_mod s), hsp,
    hsp ▸ State.byteAt_pushed_pushAddr s v, fun _ => State.byteAt_pushed_other s v, fun _ => State.pushed_x s v,
    State.pushed_frame s v⟩

/-! ## The output -/

theorem exec_prn_index (s : State) (r : Reg) :
    exec (.prn r.index) s = .next { s.emit (s.x r) with pc := s.pc + 2 } := by
  simp [exec, execPrn]

/-- An instruction that raises no error leaves the output, or is PRN and appends its register (10_state.md R55). -/
theorem Ran.out_cases {s t : State} {i : Instr} (h : Ran s i t) :
    t.out = s.out ∨ ∃ q : Reg, i = .prn q.index ∧ t.out = s.out ++ [s.x q] := by
  cases h with
  | prn r => exact .inr ⟨r, rfl, rfl⟩
  | reg | hlt | cmp | jmp | noJmp | call | int | iret => exact .inl rfl

theorem State.enterInterrupt_out {s t : State} {i : Fin 8} (h : s.enterInterrupt i = .ok t) : t.out = s.out := by
  rw [State.enterInterrupt_frame h]

/-- Settles O43, by cases on what a step can do: of them only an instruction that ran can change the output. -/
theorem onlyPrintExtendsTheOutput : Obligations.OnlyPrintExtendsTheOutput := by
  refine ⟨rfl, fun s r => ⟨_, exec_prn_index s r, rfl⟩, fun s t h => ?_⟩
  rcases step_cases h with ⟨_, rfl⟩ | ⟨_, rfl⟩ | ⟨_, ⟨e, rfl⟩ | ⟨n, _, hn⟩ | ⟨f, i, _, hf, hd, hx⟩⟩
  · exact .inl (State.start_out s)
  · exact .inl rfl
  · exact .inl (State.raise_out s e)
  · exact .inl (State.enterInterrupt_out hn)
  · rcases exec_cases hx with ⟨e, rfl⟩ | hran
    · exact .inl (State.raise_out s e)
    · rcases hran.out_cases with hout | ⟨q, rfl, hout⟩
      · exact .inl hout
      · exact .inr ⟨f, q.index, hf, hd, q, rfl, hout⟩

end Sys2Proof.Machine
end

section
/-! PROOFS. The statement of 20_memory.md on the memory port. -/

namespace Sys2Proof.Machine

/-! ## A write through the port -/

/-- A write changes nothing but memory. -/
theorem State.memWrite_frame {s t : State} {a v : Nat} (h : s.memWrite a v = .ok t) : t = { s with mem := t.mem } := by
  obtain ⟨_, rfl⟩ := State.memWrite_eq_ok.mp h
  rfl

theorem State.memRead_memWrite_same {s t : State} {a v : Nat} (h : s.memWrite a v = .ok t) :
    t.memRead a = .ok (BitVec.ofNat 8 v) := by
  obtain ⟨hlt, rfl⟩ := State.memWrite_eq_ok.mp h
  exact State.memRead_eq_ok.mpr ⟨hlt, (Memory.peek_poke_same s.mem a _).symm⟩

/-- A write leaves what every other address answers, its failure out of range included (20_memory.md R74). -/
theorem State.memRead_memWrite_other {s t : State} {a c v : Nat} (h : s.memWrite a v = .ok t) (hc : c ≠ a) :
    t.memRead c = s.memRead c := by
  obtain ⟨_, rfl⟩ := State.memWrite_eq_ok.mp h
  simp only [State.memRead, State.byteAt, Memory.peek_poke_other s.mem _ hc]

/-- Settles O19: in range the port answers, and the lemmas above say what the written state reads as; at or above
`MEM_SIZE` both accesses fail. -/
theorem memoryPortContract : Obligations.MemoryPortContract := by
  intro s a v
  refine ⟨fun hlt => ⟨State.memRead_of_lt hlt, ?_⟩, fun hge => ⟨State.memRead_of_ge hge, State.memWrite_of_ge v hge⟩⟩
  have hw := State.memWrite_of_lt v hlt
  exact ⟨_, hw, State.memWrite_frame hw, State.memRead_memWrite_same hw, fun _ => State.memRead_memWrite_other hw⟩

end Sys2Proof.Machine
end

section
/-! PROOFS. The statement of 30_encoding.md on the length field. -/

namespace Sys2Proof

/-! ## What the decoder reads -/

/-- Every row of the opcode map holds the byte of the mnemonic's Encoding line. -/
theorem eq_opcode_of_mem_opcodeMap {p : Params} {ir : Byte} {k : Kind} (h : (ir, k) ∈ opcodeMap p) :
    ir = k.opcode p := by
  have hrows : ∀ row ∈ opcodeMap p, row.1 = row.2.opcode p := by
    cases hp : p.interrupts <;> simp [opcodeMap, hp, Kind.opcode]
  exact hrows _ h

theorem eq_opcode_of_decodeKind {p : Params} {ir : Byte} {k : Kind} (h : decodeKind p ir = some k) :
    ir = k.opcode p := by
  obtain ⟨before, after, hmap, _⟩ := List.lookup_eq_some_iff.mp h
  exact eq_opcode_of_mem_opcodeMap (hmap ▸ List.mem_append_right before List.mem_cons_self)

@[simp] theorem Kind.kind_instr (k : Kind) (a b : Byte) : (k.instr a b).kind = k := by
  cases k <;> rfl

/-- The operand bytes of a mnemonic's instruction are those its format names (30_encoding.md R104, R105). -/
theorem Kind.operandBytes_instr (k : Kind) (a b : Byte) :
    (k.instr a b).operandBytes = [a, b].take k.format.operandCount := by
  cases k <;> rfl

/-- What is decoded has the mnemonic of the opcode byte, and its operand bytes are the bytes taken after it. -/
theorem decode_cons_ok {p : Params} {ir : Byte} {ops rest : List Byte} {i : Instr}
    (h : decode p (ir :: ops) = .ok (i, rest)) :
    decodeKind p ir = some i.kind ∧ ops = i.operandBytes ++ rest := by
  cases hk : decodeKind p ir with
  | none => simp [decode, hk] at h
  | some k =>
    simp only [decode, hk] at h
    split at h
    case h_5 => cases h
    all_goals
      next hf =>
      cases h
      simp [Kind.operandBytes_instr, hf, Format.operandCount]

/-- Decoded bytes begin with the encoding of what they decode to. -/
theorem eq_encode_append_of_decode {p : Params} {ir : Byte} {ops rest : List Byte} {i : Instr}
    (h : decode p (ir :: ops) = .ok (i, rest)) : ir :: ops = encode p i ++ rest := by
  obtain ⟨hkind, hops⟩ := decode_cons_ok h
  rw [eq_opcode_of_decodeKind hkind, hops]
  rfl

/-! ## The length field -/

/-- The two top bits of a byte, as the quotient by 64 (30_encoding.md R100). -/
theorem lengthOf_eq_div (ir : Byte) : lengthOf ir = ir.toNat / 64 + 1 :=
  congrArg (· + 1) (Nat.shiftRight_eq_div_pow ir.toNat 6)

theorem Instr.length_encode_and_len_le : (i : Instr) → Laws.LengthField.Statement i
  | .ldi a imm => Laws.LengthField.ldi a imm
  | .prn a => Laws.LengthField.prn a
  | .hlt => Laws.LengthField.hlt
  | .mul a b => Laws.LengthField.mul a b
  | .add a b => Laws.LengthField.add a b
  | .and a b => Laws.LengthField.and a b
  | .cmp a b => Laws.LengthField.cmp a b
  | .inc a => Laws.LengthField.inc a
  | .dec a => Laws.LengthField.dec a
  | .div a b => Laws.LengthField.div a b
  | .jmp a => Laws.LengthField.jmp a
  | .jeq a => Laws.LengthField.jeq a
  | .jne a => Laws.LengthField.jne a
  | .call a => Laws.LengthField.call a
  | .int a => Laws.LengthField.int a
  | .iret => Laws.LengthField.iret

end Sys2Proof

namespace Sys2Proof.Machine

/-- Settles O16: decoded bytes are the encoding of the instruction and the rest, so the opcode is the first byte and the
length of an encoding counts the bytes taken. -/
theorem lengthFieldGivesTheLength : Obligations.LengthFieldGivesTheLength := by
  refine ⟨fun p ir ops rest i h => ?_, fun s t i => congrArg State.pc (State.advance_carryOn s t i)⟩
  obtain ⟨htaken, hle⟩ := Instr.length_encode_and_len_le i p
  have hbytes := eq_encode_append_of_decode h
  have hlen : i.len p = ir.toNat / 64 + 1 := by
    rw [← lengthOf_eq_div, (List.cons.inj hbytes).1]
    rfl
  rw [← hlen]
  exact ⟨by rw [hbytes, List.length_append, htaken], hle, rfl⟩

end Sys2Proof.Machine
end

section
/-! PROOFS. The statement of 40_cycle.md on the errors of the fetch and of the decoder. -/

namespace Sys2Proof.Machine

/-! ## The fetch out of range -/

theorem State.fetch_of_ge_pc {s : State} (hge : s.params.memSize ≤ s.pc) :
    s.fetch = .error (.memoryOutOfRange s.pc) := by
  simp only [State.fetch, State.memRead_of_ge hge, error_bind]

theorem State.fetch_of_ge_opA {s : State} (hir : s.pc < s.params.memSize) (hge : s.params.memSize ≤ s.pc + 1) :
    s.fetch = .error (.memoryOutOfRange (s.pc + 1)) := by
  simp only [State.fetch, State.memRead_of_lt hir, State.memRead_of_ge hge, ok_bind, error_bind]

theorem State.fetch_of_ge_opB {s : State} (hopA : s.pc + 1 < s.params.memSize) (hge : s.params.memSize ≤ s.pc + 2) :
    s.fetch = .error (.memoryOutOfRange (s.pc + 2)) := by
  have hir : s.pc < s.params.memSize := Nat.lt_of_succ_lt hopA
  simp only [State.fetch, State.memRead_of_lt hir, State.memRead_of_lt hopA, State.memRead_of_ge hge, ok_bind,
    error_bind]

/-! ## A Running step with no interrupt to take -/

theorem step_eq_runInstruction {s : State} (hrun : s.status = .running) (hnone : s.interruptToTake = none) :
    step s = s.runInstruction := by
  simp only [step, State.cycle, hrun, State.tick, hnone]

theorem State.runInstruction_of_fetch_error {s : State} {e : FatalError} (hf : s.fetch = .error e) :
    s.runInstruction = .next (s.raise e) := by
  simp only [State.runInstruction, hf]

/-- The decoder fails on the opcode byte alone, whatever the operand bytes are (40_cycle.md R134). -/
theorem decodeFetched_eq_none {p : Params} {ir : Byte} (hk : decodeKind p ir = none) (opA opB : Byte) :
    decodeFetched p ir opA opB = none := by
  simp only [decodeFetched, hk, Option.map_none]

theorem State.runInstruction_of_unknown {s : State} {f : Fetched} (hf : s.fetch = .ok f)
    (hk : decodeKind s.params f.ir = none) : s.runInstruction = .next (s.raise (.unknownOpcode f.ir)) := by
  simp only [State.runInstruction, hf, decodeFetched_eq_none hk]

/-- Settles O47: the step is the instruction's part of the tick, and the fetch answers by the first of its three
addresses that is out of range. -/
theorem fetchErrorsInOrder : Obligations.FetchErrorsInOrder := by
  intro s hrun hnone
  have hfetch (hlt : s.pc + 2 < s.params.memSize) := State.fetch_eq_ok.mpr ⟨hlt, rfl⟩
  rw [step_eq_runInstruction hrun hnone]
  refine ⟨hfetch, fun hge => ?_, fun hir hge => ?_, fun hopA hge => ?_, fun hlt hk => ?_⟩
  · exact State.runInstruction_of_fetch_error (State.fetch_of_ge_pc hge)
  · exact State.runInstruction_of_fetch_error (State.fetch_of_ge_opA hir hge)
  · exact State.runInstruction_of_fetch_error (State.fetch_of_ge_opB hopA hge)
  · exact State.runInstruction_of_unknown (hfetch hlt) hk

end Sys2Proof.Machine
end

section
/-! PROOFS. The statements of 41_basic.md on LDI and PRN. -/

namespace Sys2Proof

/-! ## Decoding by format -/

/-- An opcode of the register format takes one operand byte (30_encoding.md R104). -/
theorem decode_of_format_fr {p : Params} {ir : Byte} {k : Kind} (hk : decodeKind p ir = some k) (hf : k.format = .fr)
    (a : Byte) (rest : List Byte) : decode p (ir :: a :: rest) = .ok (k.instr a 0, rest) := by
  simp only [decode, hk, hf]

/-- An opcode of the register and immediate format takes two operand bytes (30_encoding.md R104). -/
theorem decode_of_format_fri {p : Params} {ir : Byte} {k : Kind} (hk : decodeKind p ir = some k) (hf : k.format = .fri)
    (a b : Byte) (rest : List Byte) : decode p (ir :: a :: b :: rest) = .ok (k.instr a b, rest) := by
  simp only [decode, hk, hf]

theorem decodeKind_ldi (p : Params) : decodeKind p 0x99#8 = some .ldi := rfl

theorem decodeKind_prn (p : Params) : decodeKind p 0x43#8 = some .prn := rfl

end Sys2Proof

namespace Sys2Proof.Machine

/-! ## LDI -/

theorem exec_ldi_index (s : State) (r : Reg) (imm : Byte) :
    exec (.ldi r.index imm) s = .next { s.setX r imm with pc := s.pc + 3 } := by
  simp [exec, execLdi]

theorem exec_ldi_bad (s : State) {a : Byte} (imm : Byte) (h : 8 ≤ a.toNat) :
    exec (.ldi a imm) s = .next (s.raise (.badRegisterIndex a)) := by
  simp [exec, execLdi, checkReg_bad h]

/-- Settles O25: the decoding by the format of LDI, and its handler for an index that names a register and for one that
does not. -/
theorem loadImmediateRule : Obligations.LoadImmediateRule :=
  ⟨fun p => decode_of_format_fri (decodeKind_ldi p) rfl, exec_ldi_index, fun s _ => exec_ldi_bad s⟩

/-! ## PRN -/

theorem exec_prn_bad (s : State) {a : Byte} (h : 8 ≤ a.toNat) :
    exec (.prn a) s = .next (s.raise (.badRegisterIndex a)) := by
  simp [exec, execPrn, checkReg_bad h]

/-- One emitted byte is one more printed line (70_reset_and_hazards.md R246). -/
theorem State.printed_of_out {s t : State} {v : Byte} (h : t.out = s.out ++ [v]) :
    t.printed = s.printed ++ [Nat.repr v.toNat] := by
  simp only [State.printed, h, List.map_append, List.map_cons, List.map_nil]

/-- Settles O26: the decoding by the format of PRN, and its handler, whose new state has one more output byte and so one
more printed line. -/
theorem printRegisterRule : Obligations.PrintRegisterRule := by
  refine ⟨fun p => decode_of_format_fr (decodeKind_prn p) rfl, fun s r => ?_, fun s _ => exec_prn_bad s⟩
  exact ⟨_, exec_prn_index s r, rfl, State.printed_of_out rfl⟩

end Sys2Proof.Machine
end

section
/-! PROOFS. The statements of 42_alu.md on the ALU instructions. -/

namespace Sys2Proof

/-- An opcode of the two-register format takes two operand bytes (30_encoding.md R104). -/
theorem decode_of_format_frr {p : Params} {ir : Byte} {k : Kind} (hk : decodeKind p ir = some k) (hf : k.format = .frr)
    (a b : Byte) (rest : List Byte) : decode p (ir :: a :: b :: rest) = .ok (k.instr a b, rest) := by
  simp only [decode, hk, hf]

theorem decodeKind_mul (p : Params) : decodeKind p 0xAA#8 = some .mul := rfl

theorem decodeKind_add (p : Params) : decodeKind p 0xA8#8 = some .add := rfl

theorem decodeKind_and (p : Params) : decodeKind p 0xB3#8 = some .and := rfl

theorem decodeKind_cmp (p : Params) : decodeKind p 0xA0#8 = some .cmp := rfl

theorem decodeKind_inc (p : Params) : decodeKind p 0x78#8 = some .inc := rfl

theorem decodeKind_dec (p : Params) : decodeKind p 0x79#8 = some .dec := rfl

theorem decodeKind_div (p : Params) : decodeKind p 0xAB#8 = some .div := rfl

end Sys2Proof

namespace Sys2Proof.Machine

/-! ## The alu unit

Its byte operations as arithmetic on the unsigned values, with the wrap modulo 256 written out (42_alu.md R161). -/

theorem alu_mul (va vb : Byte) : alu .mul va vb = .ok ⟨some (BitVec.ofNat 8 (va.toNat * vb.toNat % 256)), none⟩ := by
  have hval : va * vb = BitVec.ofNat 8 (va.toNat * vb.toNat % 256) := BitVec.eq_of_toNat_eq (by simp)
  rw [alu, hval]

theorem alu_add (va vb : Byte) : alu .add va vb = .ok ⟨some (BitVec.ofNat 8 ((va.toNat + vb.toNat) % 256)), none⟩ := by
  have hval : va + vb = BitVec.ofNat 8 ((va.toNat + vb.toNat) % 256) := BitVec.eq_of_toNat_eq (by simp)
  rw [alu, hval]

theorem alu_inc (va vb : Byte) : alu .inc va vb = .ok ⟨some (BitVec.ofNat 8 ((va.toNat + 1) % 256)), none⟩ := by
  have hval : va + 1 = BitVec.ofNat 8 ((va.toNat + 1) % 256) := BitVec.eq_of_toNat_eq (by simp)
  rw [alu, hval]

theorem alu_dec (va vb : Byte) : alu .dec va vb = .ok ⟨some (BitVec.ofNat 8 ((va.toNat + 255) % 256)), none⟩ := by
  have hval : va - 1 = BitVec.ofNat 8 ((va.toNat + 255) % 256) :=
    BitVec.eq_of_toNat_eq (by simp [BitVec.toNat_sub, Nat.add_comm])
  rw [alu, hval]

theorem alu_div {va vb : Byte} (h : vb ≠ 0) :
    alu .div va vb = .ok ⟨some (BitVec.ofNat 8 (va.toNat / vb.toNat)), none⟩ := by
  rw [alu, if_neg h, BitVec.udiv_def]

theorem alu_div_zero (va : Byte) : alu .div va 0 = .error .divisionByZero := rfl

/-- The flags of a comparison, E as equality of the bytes (42_alu.md R165). -/
theorem Flags.compare_eq (va vb : Byte) : Flags.compare va vb = ⟨va = vb, vb.toNat < va.toNat, va.toNat < vb.toNat⟩ := by
  simp only [Flags.compare, Flags.mk.injEq, and_true, BitVec.toNat_eq]
  rfl

/-- A comparison sets exactly one flag, by trichotomy of the unsigned values. -/
theorem Flags.compare_sets_one (va vb : Byte) :
    (Flags.compare va vb).e.toNat + (Flags.compare va vb).g.toNat + (Flags.compare va vb).l.toNat = 1 := by
  rcases Nat.lt_trichotomy va.toNat vb.toNat with h | h | h
  · simp [Flags.compare, h, h.ne, h.le]
  · simp [Flags.compare, h]
  · simp [Flags.compare, h, Nat.ne_of_gt h, Nat.lt_asymm h]

/-! ## The dispatch of an ALU handler

`exec` of an ALU instruction is the dispatch of its handler by definition, so these are its rules once the operation
and the instruction's length are put in. -/

theorem State.dispatch_aluTwo_result {s : State} {i : Instr} {op : AluOp} {ra rb : Reg} {v : Byte} {n : Nat}
    (hlen : i.len s.params = n) (hv : alu op (s.x ra) (s.x rb) = .ok ⟨some v, none⟩) :
    s.dispatch i (s.aluTwo op ra.index rb.index) = .next { s.setX ra v with pc := s.pc + n } := by
  rw [State.aluTwo_index, hv, ← hlen]
  rfl

theorem State.dispatch_aluTwo_error {s : State} (i : Instr) {op : AluOp} {ra rb : Reg} {e : FatalError}
    (he : alu op (s.x ra) (s.x rb) = .error e) :
    s.dispatch i (s.aluTwo op ra.index rb.index) = .next (s.raise e) := by
  rw [State.aluTwo_index, he]
  rfl

theorem State.dispatch_aluTwo_bad_first (s : State) (i : Instr) (op : AluOp) {a : Byte} (b : Byte) (h : 8 ≤ a.toNat) :
    s.dispatch i (s.aluTwo op a b) = .next (s.raise (.badRegisterIndex a)) := by
  rw [State.aluTwo_bad_first s op b h, State.dispatch_error]

theorem State.dispatch_aluTwo_bad_second (s : State) (i : Instr) (op : AluOp) (ra : Reg) {b : Byte}
    (h : 8 ≤ b.toNat) : s.dispatch i (s.aluTwo op ra.index b) = .next (s.raise (.badRegisterIndex b)) := by
  rw [State.aluTwo_bad_second s op ra h, State.dispatch_error]

theorem State.dispatch_aluOne_result {s : State} {i : Instr} {op : AluOp} {r : Reg} {v : Byte} {n : Nat}
    (hlen : i.len s.params = n) (hv : alu op (s.x r) 0 = .ok ⟨some v, none⟩) :
    s.dispatch i (s.aluOne op r.index) = .next { s.setX r v with pc := s.pc + n } := by
  rw [State.aluOne_index, hv, ← hlen]
  rfl

theorem State.dispatch_aluOne_bad (s : State) (i : Instr) (op : AluOp) {a : Byte} (h : 8 ≤ a.toNat) :
    s.dispatch i (s.aluOne op a) = .next (s.raise (.badRegisterIndex a)) := by
  rw [State.aluOne_bad s op h, State.dispatch_error]

/-! ## MUL, ADD and AND -/

/-- Settles O28: each of the three is the two-register dispatch with its own alu equation. -/
theorem mulAddAndRules : Obligations.MulAddAndRules := by
  refine ⟨fun p a b rest => ⟨?_, ?_, ?_⟩, fun s ra rb => ⟨?_, ?_, ?_⟩, fun s a b h => ?_,
    fun s ra b h => ?_⟩
  · exact decode_of_format_frr (decodeKind_mul p) rfl a b rest
  · exact decode_of_format_frr (decodeKind_add p) rfl a b rest
  · exact decode_of_format_frr (decodeKind_and p) rfl a b rest
  · exact State.dispatch_aluTwo_result (Instr.len_mul _ _ _) (alu_mul _ _)
  · exact State.dispatch_aluTwo_result (Instr.len_add _ _ _) (alu_add _ _)
  · exact State.dispatch_aluTwo_result (op := .and) (Instr.len_and _ _ _) rfl
  · have hbad (i : Instr) (op : AluOp) := State.dispatch_aluTwo_bad_first s i op b h
    exact ⟨hbad _ _, hbad _ _, hbad _ _⟩
  · have hbad (i : Instr) (op : AluOp) := State.dispatch_aluTwo_bad_second s i op ra h
    exact ⟨hbad _ _, hbad _ _, hbad _ _⟩

/-! ## CMP -/

theorem exec_cmp_index (s : State) (ra rb : Reg) :
    exec (.cmp ra.index rb.index) s = .next { s with fl := Flags.compare (s.x ra) (s.x rb), pc := s.pc + 3 } := by
  rw [exec, execCmp, State.aluTwo_index, ← Instr.len_cmp s.params ra.index rb.index]
  rfl

/-- Settles O29: the new state holds the flags of the comparison, of which exactly one is set. -/
theorem compareRule : Obligations.CompareRule := by
  refine ⟨fun p => decode_of_format_frr (decodeKind_cmp p) rfl, fun s ra rb => ?_,
    fun s _ b => State.dispatch_aluTwo_bad_first s _ _ b, fun s ra _ => State.dispatch_aluTwo_bad_second s _ _ ra⟩
  exact ⟨_, exec_cmp_index s ra rb, by rw [Flags.compare_eq], Flags.compare_sets_one _ _⟩

/-! ## INC and DEC -/

theorem exec_inc_index (s : State) (r : Reg) :
    exec (.inc r.index) s = .next { s.setX r (s.x r + 1) with pc := s.pc + 2 } :=
  State.dispatch_aluOne_result (op := .inc) (Instr.len_inc _ _) rfl

theorem exec_dec_index (s : State) (r : Reg) :
    exec (.dec r.index) s = .next { s.setX r (s.x r - 1) with pc := s.pc + 2 } :=
  State.dispatch_aluOne_result (op := .dec) (Instr.len_dec _ _) rfl

/-- A second write to a register that gives it its first value back restores the whole file. -/
theorem RegFile.set_set_get (f : RegFile) (r : Reg) (v : Byte) : (f.set r v).set r (f.get r) = f := by
  cases r <;> rfl

/-- Writing `f` of a register and then `g` of it restores the file when `g` undoes `f`. -/
theorem State.regs_eq_of_inverse_writes {s t u : State} {r : Reg} {f g : Byte → Byte} (hgf : ∀ v, g (f v) = v)
    (ht : t.regs = s.regs.set r (f (s.x r))) (hu : u.regs = t.regs.set r (g (t.x r))) : u.regs = s.regs := by
  have hx : t.x r = f (s.x r) := by rw [State.x, ht, RegFile.get_set_same]
  rw [hu, hx, hgf, ht]
  exact RegFile.set_set_get s.regs r _

theorem regs_eq_of_exec_inc_dec {s t u : State} {r : Reg} (hinc : exec (.inc r.index) s = .next t)
    (hdec : exec (.dec r.index) t = .next u) : u.regs = s.regs := by
  cases (exec_inc_index s r).symm.trans hinc
  cases (exec_dec_index _ r).symm.trans hdec
  exact State.regs_eq_of_inverse_writes (f := (· + 1)) (g := (· - 1)) (fun v => BitVec.add_sub_cancel v 1) rfl rfl

theorem regs_eq_of_exec_dec_inc {s t u : State} {r : Reg} (hdec : exec (.dec r.index) s = .next t)
    (hinc : exec (.inc r.index) t = .next u) : u.regs = s.regs := by
  cases (exec_dec_index s r).symm.trans hdec
  cases (exec_inc_index _ r).symm.trans hinc
  exact State.regs_eq_of_inverse_writes (f := (· - 1)) (g := (· + 1)) (fun v => BitVec.sub_add_cancel v 1) rfl rfl

/-- Settles O30: the one-register dispatch with the alu equation of INC and of DEC; the two byte operations undo each
other. -/
theorem incrementDecrementRules : Obligations.IncrementDecrementRules := by
  refine ⟨fun p a rest => ⟨?_, ?_⟩, fun s r => ⟨?_, ?_⟩,
    fun s t u r => ⟨regs_eq_of_exec_inc_dec, regs_eq_of_exec_dec_inc⟩, fun s a h => ⟨?_, ?_⟩⟩
  · exact decode_of_format_fr (decodeKind_inc p) rfl a rest
  · exact decode_of_format_fr (decodeKind_dec p) rfl a rest
  · exact State.dispatch_aluOne_result (Instr.len_inc _ _) (alu_inc _ _)
  · exact State.dispatch_aluOne_result (Instr.len_dec _ _) (alu_dec _ _)
  · exact State.dispatch_aluOne_bad s _ _ h
  · exact State.dispatch_aluOne_bad s _ _ h

/-! ## DIV -/

/-- Settles O31: after the index checks the alu unit either gives the quotient or raises DivisionByZero. -/
theorem divideRule : Obligations.DivideRule := by
  refine ⟨fun p => decode_of_format_frr (decodeKind_div p) rfl, fun s ra rb => ⟨fun hne => ?_, fun hzero => ?_⟩,
    fun s _ b => State.dispatch_aluTwo_bad_first s _ _ b, fun s ra _ => State.dispatch_aluTwo_bad_second s _ _ ra⟩
  · exact State.dispatch_aluTwo_result (Instr.len_div _ _ _) (alu_div hne)
  · exact State.dispatch_aluTwo_error _ (hzero ▸ alu_div_zero (s.x ra))

end Sys2Proof.Machine
end

section
/-! PROOFS. The statement of 43_control.md on JEQ and JNE. -/

namespace Sys2Proof

/-! The JMP row, whose byte is a parameter, stands before the rows of JEQ and JNE; no choice of it is
their byte. -/

theorem decodeKind_jeq (p : Params) : decodeKind p 0x51#8 = some .jeq := by
  rw [decodeKind_params]
  cases p.jmpOpcode <;> rfl

theorem decodeKind_jne (p : Params) : decodeKind p 0x52#8 = some .jne := by
  rw [decodeKind_params]
  cases p.jmpOpcode <;> rfl

end Sys2Proof

namespace Sys2Proof.Machine

/-! ## The dispatch of a branch handler

`exec` of a jump is the dispatch of `State.branch` by definition, so these are its rules once the condition is decided
and the instruction's length is put in. -/

theorem State.dispatch_branch_taken {s : State} (i : Instr) {taken : Bool} (htaken : taken = true) (r : Reg) :
    s.dispatch i (s.branch taken r.index) = .next { s with pc := (s.x r).toNat } := by
  rw [State.branch_index, if_pos htaken, State.dispatch_ok, State.advance_jump]

theorem State.dispatch_branch_notTaken {s : State} {i : Instr} {taken : Bool} {n : Nat} (hlen : i.len s.params = n)
    (htaken : taken = false) (r : Reg) :
    s.dispatch i (s.branch taken r.index) = .next { s with pc := s.pc + n } := by
  rw [State.branch_index, if_neg (Bool.eq_false_iff.mp htaken), State.dispatch_ok, State.advance_carryOn, hlen]

/-- The operand is checked before the condition is looked at (10_state.md R24). -/
theorem State.dispatch_branch_bad (s : State) (i : Instr) (taken : Bool) {a : Byte} (h : 8 ≤ a.toNat) :
    s.dispatch i (s.branch taken a) = .next (s.raise (.badRegisterIndex a)) := by
  rw [State.branch_bad s taken h, State.dispatch_error]

/-! ## JEQ and JNE -/

/-- Settles O33: JEQ is the branch on E and JNE the branch on its complement, so each value of E takes one of them and
leaves the other to the advance. -/
theorem conditionalJumpRules : Obligations.ConditionalJumpRules := by
  refine ⟨fun p a rest => ⟨?_, ?_⟩, fun s r => ⟨fun he => ⟨?_, ?_⟩, fun he => ⟨?_, ?_⟩⟩, fun s a h => ⟨?_, ?_⟩⟩
  · exact decode_of_format_fr (decodeKind_jeq p) rfl a rest
  · exact decode_of_format_fr (decodeKind_jne p) rfl a rest
  · exact State.dispatch_branch_taken _ he r
  · exact State.dispatch_branch_notTaken (Instr.len_jne _ _) (congrArg not he) r
  · exact State.dispatch_branch_notTaken (Instr.len_jeq _ _) he r
  · exact State.dispatch_branch_taken _ (congrArg not he) r
  · exact State.dispatch_branch_bad s _ _ h
  · exact State.dispatch_branch_bad s _ _ h

end Sys2Proof.Machine
end

section
/-! PROOFS. The statements of 40_cycle.md on the whole step: totality, the run state machine, the failing tick, and the
invariant. -/

namespace Sys2Proof.Machine

/-! ## The step is total -/

theorem State.commit_is_next (s : State) (r : Except FatalError State) : ∃ t, s.commit r = .next t := by
  cases r <;> exact ⟨_, rfl⟩

theorem State.runInstruction_is_next (s : State) : ∃ t, s.runInstruction = .next t := by
  rcases State.runInstruction_cases s with ⟨_, _, h⟩ | ⟨_, _, _, h⟩ | ⟨_, i, _, _, h⟩
  · exact ⟨_, h⟩
  · exact ⟨_, h⟩
  · exact h ▸ exec_is_next i s

theorem State.tick_is_next (s : State) : ∃ t, s.tick = .next t := by
  unfold State.tick
  split
  · exact State.commit_is_next s _
  · exact State.runInstruction_is_next s

/-- Settles O5: a start, a tick and a halted step each answer a next state. -/
theorem everyStepAnswersANextState : Obligations.EveryStepAnswersANextState := by
  intro s
  unfold step State.cycle
  split
  · exact ⟨_, rfl⟩
  · exact State.tick_is_next s
  · exact ⟨_, rfl⟩

/-! ## What an instruction that ran leaves of the state -/

theorem Ran.params {s t : State} {i : Instr} (h : Ran s i t) : t.params = s.params := by
  cases h <;> rfl

/-- Status and error record are an instruction's to change only for HLT (41_basic.md R152). -/
theorem Ran.status_err {s t : State} {i : Instr} (h : Ran s i t) :
    (t.status = s.status ∧ t.err = s.err) ∨ (i = .hlt ∧ t.status = .halted ∧ t.err = none) := by
  cases h with
  | hlt => exact .inr ⟨rfl, rfl, rfl⟩
  | reg | prn | cmp | jmp | noJmp | call | int | iret => exact .inl ⟨rfl, rfl⟩

/-- Memory is written only by the push of CALL, which keeps the canonical form. -/
theorem Ran.mem_wf {s t : State} {i : Instr} (h : Ran s i t) (hw : s.mem.wf s.params.memSize = true) :
    t.mem.wf s.params.memSize = true := by
  cases h with
  | call r hlt => exact Memory.wf_poke _ hw hlt
  | reg | prn | hlt | cmp | jmp | noJmp | int | iret => exact hw

/-- The PC after an instruction is advanced by at most three, or is a byte (10_state.md R28). -/
theorem Ran.pc_le {s t : State} {i : Instr} (h : Ran s i t) : t.pc ≤ s.pc + 3 ∨ t.pc ≤ 255 := by
  cases h with
  | reg i => exact .inl (Nat.add_le_add_left (Instr.length_encode_and_len_le i s.params).2 s.pc)
  | hlt pc hpc => exact .inl (by subst hpc; dsimp only; split <;> omega)
  | cmp => exact .inl le_rfl
  | prn | noJmp | int => exact .inl (Nat.le_succ _)
  | jmp | call | iret => exact .inr (Nat.le_of_lt_succ (BitVec.isLt _))

theorem State.enterInterrupt_pc_le {s t : State} {i : Fin 8} (h : s.enterInterrupt i = .ok t) : t.pc ≤ 255 := by
  obtain ⟨_, rfl⟩ := State.enterInterrupt_eq_ok h
  exact Nat.le_of_lt_succ (BitVec.isLt _)

theorem State.enterInterrupt_params {s t : State} {i : Fin 8} (h : s.enterInterrupt i = .ok t) :
    t.params = s.params := by
  rw [State.enterInterrupt_frame h]

theorem State.enterInterrupt_status {s t : State} {i : Fin 8} (h : s.enterInterrupt i = .ok t) :
    t.status = s.status := by
  rw [State.enterInterrupt_frame h]

theorem State.enterInterrupt_err {s t : State} {i : Fin 8} (h : s.enterInterrupt i = .ok t) : t.err = s.err := by
  rw [State.enterInterrupt_frame h]

/-! ## What a Running step can do -/

/-- The step of a Running machine: a raise, an interrupt entry, or an instruction that ran. -/
theorem step_cases_running {s t : State} (hrun : s.status = .running) (h : step s = .next t) :
    (∃ e, t = s.raise e) ∨
    (∃ i, s.interruptToTake = some i ∧ s.enterInterrupt i = .ok t) ∨
    (∃ f i, s.interruptToTake = none ∧ s.fetch = .ok f ∧ decodeFetched s.params f.ir f.opA f.opB = some i ∧
      exec i s = .next t ∧ Ran s i t) := by
  rcases step_cases h with ⟨hs, _⟩ | ⟨hs, _⟩ | ⟨_, hraise | hent | ⟨f, i, hi, hf, hd, hx⟩⟩
  · simp [hrun] at hs
  · simp [hrun] at hs
  · exact .inl hraise
  · exact .inr (.inl hent)
  · rcases exec_cases hx with hraise | hran
    · exact .inl hraise
    · exact .inr (.inr ⟨f, i, hi, hf, hd, hx, hran⟩)

/-! ## The invariant -/

/-- The invariant of a machine that is not Idle: its last clause asks nothing. -/
theorem State.Inv.of_ne_idle {t : State} (legal : t.params.legal) (hmem : t.mem.wf t.params.memSize = true)
    (hpc : t.pc ≤ max t.params.memSize 255) (herr : ∀ r ∈ t.err, t.status = .halted ∧ r.pc = t.pc)
    (hstatus : t.status ≠ .idle) : t.Inv :=
  ⟨legal, hmem, hpc, herr, fun hidle => absurd hidle hstatus⟩

theorem State.Inv.err_eq_none {s : State} (h : s.Inv) (hstatus : s.status ≠ .halted) : s.err = none := by
  obtain ⟨_, _, _, herr, _⟩ := h
  exact Option.eq_none_iff_forall_not_mem.mpr fun r hr => hstatus (herr r hr).1

theorem State.Inv.start {s : State} (h : s.Inv) (hidle : s.status = .idle) : s.start.Inv := by
  have hnone : s.err = none := h.err_eq_none (by rw [hidle]; decide)
  obtain ⟨legal, hmem, hpc, _, _⟩ := h
  exact .of_ne_idle legal hmem hpc (by simp [hnone]) (by simp)

theorem State.Inv.raise {s : State} (h : s.Inv) (e : FatalError) : (s.raise e).Inv := by
  obtain ⟨legal, hmem, hpc, _, _⟩ := h
  refine .of_ne_idle legal hmem hpc (fun r hr => ⟨rfl, ?_⟩) (by simp)
  cases hr
  rfl

theorem State.Inv.enterInterrupt {s t : State} {i : Fin 8} (h : s.Inv) (hrun : s.status = .running)
    (hent : s.enterInterrupt i = .ok t) : t.Inv := by
  have hnone : t.err = none := (State.enterInterrupt_err hent).trans (h.err_eq_none (by rw [hrun]; decide))
  obtain ⟨legal, hmem, _, _, _⟩ := h
  refine .of_ne_idle ?_ (State.enterInterrupt_wf hent hmem) ?_ (by simp [hnone]) ?_
  · exact (State.enterInterrupt_params hent).symm ▸ legal
  · exact (State.enterInterrupt_pc_le hent).trans (le_max_right _ _)
  · rw [State.enterInterrupt_status hent, hrun]
    decide

/-- The fetch leaves three bytes between the PC and the end of memory, so an advance stays within it. -/
theorem State.Inv.ran {s t : State} {i : Instr} (h : s.Inv) (hrun : s.status = .running)
    (hpc2 : s.pc + 2 < s.params.memSize) (hran : Ran s i t) : t.Inv := by
  have hnone : t.err = none := by
    rcases hran.status_err with ⟨_, herr⟩ | ⟨_, _, herr⟩
    · exact herr.trans (h.err_eq_none (by rw [hrun]; decide))
    · exact herr
  have hstatus : t.status ≠ .idle := by
    rcases hran.status_err with ⟨hst, _⟩ | ⟨_, hst, _⟩ <;> simp [hst, hrun]
  obtain ⟨legal, hmem, _, _, _⟩ := h
  refine .of_ne_idle (hran.params.symm ▸ legal) (hran.params.symm ▸ hran.mem_wf hmem) ?_ (by simp [hnone]) hstatus
  rw [hran.params]
  rcases hran.pc_le with hpc | hpc <;> omega

/-- Settles O4, by cases on what a step can do: each kind of step has its own lemma above. -/
theorem everyStepKeepsTheInvariant : Obligations.EveryStepKeepsTheInvariant := by
  intro s t hinv h
  rcases step_cases h with ⟨hidle, rfl⟩ | ⟨_, rfl⟩ | ⟨hrun, _⟩
  · exact hinv.start hidle
  · exact hinv
  · rcases step_cases_running hrun h with ⟨e, rfl⟩ | ⟨i, _, hent⟩ | ⟨_, _, _, hf, _, _, hran⟩
    · exact hinv.raise e
    · exact hinv.enterInterrupt hrun hent
    · exact hinv.ran hrun (State.fetch_eq_ok.mp hf).1 hran

/-- Settles O3: the reset values meet every clause. -/
theorem resetSatisfiesTheInvariant : Obligations.ResetSatisfiesTheInvariant := by
  intro p h
  exact ⟨h, Memory.wf_nil _, Nat.zero_le _, by simp, fun _ => rfl⟩

/-! ## The parameters -/

/-- Settles O6: no kind of step writes the field. -/
theorem noStepChangesTheParameters : Obligations.NoStepChangesTheParameters := by
  intro s t h
  rcases step_cases h with ⟨_, rfl⟩ | ⟨_, rfl⟩ | ⟨hrun, _⟩
  · rfl
  · rfl
  · rcases step_cases_running hrun h with ⟨e, rfl⟩ | ⟨i, _, hent⟩ | ⟨_, _, _, _, _, _, hran⟩
    · rfl
    · exact State.enterInterrupt_params hent
    · exact hran.params

/-! ## The run state machine -/

theorem step_idle {s : State} (h : s.status = .idle) : step s = .next s.start := by
  simp only [step, State.cycle, h]

theorem step_halted {s : State} (h : s.status = .halted) : step s = .next s := by
  simp only [step, State.cycle, h]

theorem status_of_step_running {s t : State} (hrun : s.status = .running) (h : step s = .next t) :
    t.status = .running ∨ t.status = .halted := by
  rcases step_cases_running hrun h with ⟨e, rfl⟩ | ⟨i, _, hent⟩ | ⟨_, _, _, _, _, _, hran⟩
  · exact .inr (State.raise_status s e)
  · exact .inl ((State.enterInterrupt_status hent).trans hrun)
  · rcases hran.status_err with ⟨hst, _⟩ | ⟨_, hst, _⟩
    · exact .inl (hst.trans hrun)
    · exact .inr hst

/-- Settles O7, one status after the other. -/
theorem runStateMachine : Obligations.RunStateMachine := by
  intro s t h
  refine ⟨fun hs => ?_, fun hs => status_of_step_running hs h, fun hs => ?_⟩
  · cases (step_idle hs).symm.trans h
    rfl
  · cases (step_halted hs).symm.trans h
    rfl

/-- Settles O8, by induction on the number of steps. -/
theorem haltedIsTerminal : Obligations.HaltedIsTerminal := by
  intro n s h
  induction n with
  | zero => rfl
  | succ n ih =>
    have hstep : core.step s = .next s := step_halted h
    simp only [Host.Core.run, hstep, ih]

/-- Settles O9: of the instructions that ran only HLT halts, and an entry leaves the status Running. -/
theorem onlyHltAndFatalErrorsHalt : Obligations.OnlyHltAndFatalErrorsHalt := by
  intro s t hrun h hhalt
  rcases step_cases_running hrun h with hraise | ⟨i, _, hent⟩ | ⟨f, i, hi, hf, hd, hx, hran⟩
  · exact .inl hraise
  · simp [State.enterInterrupt_status hent, hrun] at hhalt
  · rcases hran.status_err with ⟨hst, _⟩ | ⟨rfl, _, _⟩
    · simp [hst, hrun] at hhalt
    · exact .inr ⟨hi, f, hf, hd, hx⟩

/-! ## The failing tick -/

theorem State.raise_eq (s : State) (e : FatalError) :
    s.raise e = { s with status := .halted, err := some ⟨e.code, s.pc, e.detail⟩ } := rfl

/-- Settles O10: only a raise leaves an error record where there was none. -/
theorem failingTickCommitsNothingElse : Obligations.FailingTickCommitsNothingElse := by
  intro s t hrun hnone h hfailed
  rcases step_cases_running hrun h with ⟨e, rfl⟩ | ⟨i, _, hent⟩ | ⟨_, _, _, _, _, _, hran⟩
  · exact ⟨e, State.raise_eq s e⟩
  · simp [State.failed, State.enterInterrupt_err hent, hnone] at hfailed
  · rcases hran.status_err with ⟨_, herr⟩ | ⟨_, _, herr⟩ <;> simp [State.failed, herr, hnone] at hfailed

/-- Settles O11: the record of each error, from its code and detail. -/
theorem raiseHaltsWithRecord : Obligations.RaiseHaltsWithRecord := by
  intro s addr b
  exact ⟨State.raise_eq s _, State.raise_eq s _, State.raise_eq s _, State.raise_eq s _, State.raise_eq s _, rfl⟩

/-! ## The tick of an instruction -/

theorem State.runInstruction_of_decoded {s : State} {f : Fetched} {i : Instr} (hf : s.fetch = .ok f)
    (hd : decodeFetched s.params f.ir f.opA f.opB = some i) : s.runInstruction = exec i s := by
  simp only [State.runInstruction, hf, hd]

/-- Settles O45: the step is the instruction's part of the tick, whose fetch and decoding succeed. -/
theorem stepRunsTheDecodedInstruction : Obligations.StepRunsTheDecodedInstruction := by
  intro s i hrun hnone hlt hd
  rw [step_eq_runInstruction hrun hnone]
  exact State.runInstruction_of_decoded (State.fetch_eq_ok.mpr ⟨hlt, rfl⟩) hd

end Sys2Proof.Machine
end

section
/-! PROOFS. The statements of 30_encoding.md on the opcode map, the decoder and the encoder. -/

namespace Sys2Proof

/-! ## The opcode map -/

theorem decodeKind_hlt (p : Params) : decodeKind p 0x01#8 = some .hlt := rfl

/-- No choice of the JMP byte is the byte of a row before it. -/
theorem decodeKind_jmp (p : Params) : decodeKind p p.jmpOpcode.byte = some .jmp := by
  rw [decodeKind_params]
  cases p.jmpOpcode <;> rfl

theorem decodeKind_call (p : Params) : decodeKind p 0x48#8 = some .call := by
  rw [decodeKind_params]
  cases p.jmpOpcode <;> rfl

theorem decodeKind_int (p : Params) : decodeKind p 0x4A#8 = if p.interrupts then some .int else none := by
  rw [decodeKind_params]
  cases p.interrupts <;> cases p.jmpOpcode <;> rfl

theorem decodeKind_iret (p : Params) : decodeKind p 0x0B#8 = if p.interrupts then some .iret else none := by
  rw [decodeKind_params]
  cases p.interrupts <;> cases p.jmpOpcode <;> rfl

/-- The byte of a mnemonic's Encoding line decodes to it where the parameters have it. -/
theorem decodeKind_opcode {p : Params} {i : Instr} (h : i.present p = true) :
    decodeKind p (i.kind.opcode p) = some i.kind := by
  cases i with
  | ldi => exact decodeKind_ldi p
  | prn => exact decodeKind_prn p
  | hlt => exact decodeKind_hlt p
  | mul => exact decodeKind_mul p
  | add => exact decodeKind_add p
  | and => exact decodeKind_and p
  | cmp => exact decodeKind_cmp p
  | inc => exact decodeKind_inc p
  | dec => exact decodeKind_dec p
  | div => exact decodeKind_div p
  | jmp => exact decodeKind_jmp p
  | jeq => exact decodeKind_jeq p
  | jne => exact decodeKind_jne p
  | call => exact decodeKind_call p
  | int => exact (decodeKind_int p).trans (if_pos h)
  | iret => exact (decodeKind_iret p).trans (if_pos h)

/-- The mnemonics of the interrupt option are decoded only where it is present (30_encoding.md R114). -/
theorem present_of_decodeKind {p : Params} {ir : Byte} {i : Instr} (h : decodeKind p ir = some i.kind) :
    i.present p = true := by
  have hir := eq_opcode_of_decodeKind h
  cases i with
  | int => simpa [hir, Instr.kind, Kind.opcode, decodeKind_int, Instr.present] using h
  | iret => simpa [hir, Instr.kind, Kind.opcode, decodeKind_iret, Instr.present] using h
  | ldi | prn | hlt | mul | add | and | cmp | inc | dec | div | jmp | jeq | jne | call => rfl

/-- The opcode map, said once: the byte is the mnemonic's, and the mnemonic's option holds. -/
theorem decodeKind_eq_some_iff {p : Params} {ir : Byte} {k : Kind} :
    decodeKind p ir = some k ↔ ir = k.opcode p ∧ (k.instr 0 0).present p = true := by
  have hkind : (k.instr 0 0).kind = k := k.kind_instr 0 0
  refine ⟨fun h => ⟨eq_opcode_of_decodeKind h, present_of_decodeKind (ir := ir) (hkind.symm ▸ h)⟩, ?_⟩
  rintro ⟨rfl, hpresent⟩
  simpa only [hkind] using decodeKind_opcode hpresent

/-! ## Decoding by format -/

/-- An opcode of the format without operands takes no byte after it (30_encoding.md R104). -/
theorem decode_of_format_f0 {p : Params} {ir : Byte} {k : Kind} (hk : decodeKind p ir = some k) (hf : k.format = .f0)
    (rest : List Byte) : decode p (ir :: rest) = .ok (k.instr 0 0, rest) := by
  simp only [decode, hk, hf]

theorem Kind.instr_of_f0 {k : Kind} (hf : k.format = .f0) (a b : Byte) : k.instr a b = k.instr 0 0 := by
  cases k with
  | hlt | iret => rfl
  | ldi | prn | mul | add | and | cmp | inc | dec | div | jmp | jeq | jne | call | int => cases hf

theorem Kind.instr_of_fr {k : Kind} (hf : k.format = .fr) (a b : Byte) : k.instr a b = k.instr a 0 := by
  cases k with
  | prn | inc | dec | jmp | jeq | jne | call | int => rfl
  | ldi | hlt | mul | add | and | cmp | div | iret => cases hf

/-- The three bytes of a fetch as a byte string: the instruction, and the bytes its format does not name. -/
theorem decode_three {p : Params} {ir : Byte} {k : Kind} (hk : decodeKind p ir = some k) (a b : Byte) :
    decode p [ir, a, b] = .ok (k.instr a b, [a, b].drop k.format.operandCount) := by
  cases hf : k.format with
  | f0 => rw [decode_of_format_f0 hk hf, Kind.instr_of_f0 hf a b]; rfl
  | fr => rw [decode_of_format_fr hk hf, Kind.instr_of_fr hf a b]; rfl
  | fri => exact decode_of_format_fri hk hf a b []
  | frr => exact decode_of_format_frr hk hf a b []

end Sys2Proof

namespace Sys2Proof.Machine

/-! ## The round trip -/

/-- Settles O12: the opcode byte decodes to the mnemonic, and its format takes the operand bytes. -/
theorem decodeOfEncodeIsTheInstruction : Obligations.DecodeOfEncodeIsTheInstruction := by
  intro p i rest hpresent
  have hk := decodeKind_opcode hpresent
  cases i with
  | hlt | iret => exact decode_of_format_f0 hk rfl rest
  | ldi a imm => exact decode_of_format_fri hk rfl a imm rest
  | prn a | inc a | dec a | jmp a | jeq a | jne a | call a | int a => exact decode_of_format_fr hk rfl a rest
  | mul a b | add a b | and a b | cmp a b | div a b => exact decode_of_format_frr hk rfl a b rest

/-- Settles O13: decoded bytes begin with the encoding, and a decoded mnemonic is one the parameters have. -/
theorem decodedBytesAreTheEncoding : Obligations.DecodedBytesAreTheEncoding := by
  intro p bytes rest i h
  cases bytes with
  | nil => cases h
  | cons ir ops => exact ⟨eq_encode_append_of_decode h, present_of_decodeKind (decode_cons_ok h).1⟩

/-- Settles O46: where the opcode byte is in the map, both decoders give its mnemonic the two operand bytes. -/
theorem fetchedBytesDecodeAsAString : Obligations.FetchedBytesDecodeAsAString := by
  intro p ir a b i
  cases hk : decodeKind p ir with
  | none => simp [decodeFetched, decode, hk]
  | some k => simp [decodeFetched, decode_three hk, hk]

/-! ## The table -/

/-- Settles O14: a byte in the map is its mnemonic's, so each mnemonic has the one row of that byte. -/
theorem opcodeMapIsTheTable : Obligations.OpcodeMapIsTheTable := by
  intro p ir k
  rw [decodeKind_eq_some_iff]
  constructor
  · rintro ⟨rfl, hpresent⟩
    cases k with
    | int | iret => exact .inr ⟨hpresent, by simp [Kind.opcode, Kind.format, lengthOf]⟩
    | jmp => exact .inl (by simp [Kind.opcode, Kind.format, lengthOf_jmpOpcode])
    | ldi | prn | hlt | mul | add | and | cmp | inc | dec | div | jeq | jne | call =>
      exact .inl (by simp [Kind.opcode, Kind.format, lengthOf])
  · rintro (hrow | ⟨hpresent, hrow⟩)
    · cases k <;> simp at hrow <;> exact ⟨hrow.1, rfl⟩
    · cases k <;> simp at hrow <;> exact ⟨hrow.1, hpresent⟩

/-- Settles O17: five of the words are encodings, and no row has the sixth's first byte. -/
theorem sampleWordsDecode : Obligations.SampleWordsDecode := by
  have hword (i : Instr) := decodeOfEncodeIsTheInstruction Params.reference i []
  exact ⟨hword (.ldi 7 255) rfl, hword (.div 0 1) rfl, hword (.jmp 2) rfl, hword (.int 1) rfl, hword .iret rfl, rfl⟩

/-! ## Unknown opcodes -/

theorem isSome_decodeKind (p : Params) (ir : Byte) :
    (decodeKind p ir).isSome = decide (ir ∈ (opcodeMap p).map Prod.fst) := by
  rw [Bool.eq_iff_iff, decide_eq_true_iff, ← Option.ne_none_iff_isSome, decodeKind, Ne, List.lookup_eq_none_iff]
  simp

/-- No byte has two rows in the opcode map. -/
theorem nodup_opcodeMap_bytes (p : Params) : ((opcodeMap p).map Prod.fst).Nodup := by
  unfold opcodeMap
  cases p.interrupts <;> cases p.jmpOpcode <;> decide

theorem length_opcodeMap (p : Params) : (opcodeMap p).length = if p.interrupts then 16 else 14 := by
  unfold opcodeMap
  cases p.interrupts <;> rfl

/-- Of the 256 byte values, as many are in a list of distinct bytes as the list has members. -/
theorem length_filter_range_mem {bytes : List Byte} (h : bytes.Nodup) :
    ((List.range 256).filter (fun n => decide (BitVec.ofNat 8 n ∈ bytes))).length = bytes.length := by
  have hperm : ((List.range 256).filter (fun n => decide (BitVec.ofNat 8 n ∈ bytes))).Perm
      (bytes.map BitVec.toNat) := by
    refine (List.perm_ext_iff_of_nodup (List.nodup_range.filter _) (h.map BitVec.toNat_injective)).mpr fun n => ?_
    simp only [List.mem_filter, List.mem_range, decide_eq_true_iff, List.mem_map]
    constructor
    · rintro ⟨hlt, hmem⟩
      exact ⟨_, hmem, (BitVec.toNat_ofNat _ 8).trans (Nat.mod_eq_of_lt hlt)⟩
    · rintro ⟨b, hmem, rfl⟩
      exact ⟨b.isLt, by rwa [BitVec.ofNat_toNat, BitVec.setWidth_eq]⟩
  rw [hperm.length_eq, List.length_map]

/-- Settles O15: the known bytes are as many as the rows, and no row's byte has a length field of four. -/
theorem unknownOpcodeBytes : Obligations.UnknownOpcodeBytes := by
  refine ⟨fun p => ?_, fun p ir hge => ?_⟩
  · have hsplit := List.length_eq_length_filter_add (l := List.range 256)
      (fun n => (decodeKind p (BitVec.ofNat 8 n)).isSome)
    simp only [isSome_decodeKind, length_filter_range_mem (nodup_opcodeMap_bytes p), List.length_map,
      length_opcodeMap, List.length_range] at hsplit
    simp only [← Option.not_isSome, isSome_decodeKind]
    cases hp : p.interrupts <;> simp [hp] at hsplit ⊢ <;> omega
  · by_contra hknown
    obtain ⟨k, hk⟩ := Option.ne_none_iff_exists'.mp hknown
    have hlen : lengthOf (k.opcode p) ≤ 3 :=
      Kind.kind_instr k 0 0 ▸ (Instr.length_encode_and_len_le (k.instr 0 0) p).2
    rw [← eq_opcode_of_decodeKind hk, lengthOf_eq_div] at hlen
    omega

end Sys2Proof.Machine
end

section
/-! PROOFS. The statements of 10_state.md and 20_memory.md on the reset flags, the canonical form of memory, the pop and
FL's byte image. -/

namespace Sys2Proof.Machine

/-! ## Reset -/

theorem State.interruptToTake_eq_none_of_im {s : State} (h : s.x .im = 0) : s.interruptToTake = none := by
  simp [State.interruptToTake, h]

/-- Settles O2: at reset IM masks every interrupt; the reference parameters are the ones written out. -/
theorem resetFlagsInterruptsAndParameters : Obligations.ResetFlagsInterruptsAndParameters :=
  ⟨fun _ _ => ⟨rfl, rfl, State.interruptToTake_eq_none_of_im rfl⟩, Params.reference_legal, rfl⟩

/-! ## The canonical form of memory -/

theorem Memory.peek_head (a : Nat) (v : Byte) (m : Memory) : Memory.peek ((a, v) :: m) a = v := by
  simp [Memory.peek_cons]

/-- An address below every listed one reads 0. -/
theorem Memory.peek_of_forall_lt {m : Memory} {a : Nat} (h : ∀ c ∈ m, a < c.1) : m.peek a = 0 := by
  induction m with
  | nil => rfl
  | cons c m ih =>
    have hne : a ≠ c.1 := (h c List.mem_cons_self).ne
    rw [Memory.peek_cons, if_neg hne]
    exact ih fun d hd => h d (List.mem_cons_of_mem c hd)

/-- The first cell of a memory in canonical form is the lowest address that does not read 0. -/
theorem Memory.head_le_of_peek_ne {n a b : Nat} {v : Byte} {m : Memory} (hw : Memory.wf n ((a, v) :: m) = true)
    (hb : Memory.peek ((a, v) :: m) b ≠ 0) : a ≤ b := by
  obtain ⟨_, _, hall, _⟩ := (Memory.wf_cons ..).mp hw
  by_contra hlt
  refine hb (Memory.peek_of_forall_lt fun c hc => ?_)
  rcases List.mem_cons.mp hc with rfl | hc
  · exact Nat.lt_of_not_le hlt
  · exact (Nat.lt_of_not_le hlt).trans (hall c hc)

theorem Memory.peek_head_ne {n a : Nat} {v : Byte} {m : Memory} (hw : Memory.wf n ((a, v) :: m) = true) :
    Memory.peek ((a, v) :: m) a ≠ 0 := by
  rw [Memory.peek_head]
  exact ((Memory.wf_cons ..).mp hw).2.1

/-- Two memories in canonical form with the same first cell that read the same have tails that read the same. -/
theorem Memory.peek_tail_eq {n a : Nat} {v : Byte} {m m' : Memory} (hw : Memory.wf n ((a, v) :: m) = true)
    (hw' : Memory.wf n ((a, v) :: m') = true)
    (h : ∀ c, Memory.peek ((a, v) :: m) c = Memory.peek ((a, v) :: m') c) (c : Nat) : m.peek c = m'.peek c := by
  obtain ⟨_, _, hall, _⟩ := (Memory.wf_cons ..).mp hw
  obtain ⟨_, _, hall', _⟩ := (Memory.wf_cons ..).mp hw'
  by_cases hc : c = a
  · rw [hc, Memory.peek_of_forall_lt hall, Memory.peek_of_forall_lt hall']
  · simpa [Memory.peek_cons, hc] using h c

/-- Settles O20, by induction on the cells: first cells are at the lowest address that does not read 0, so
they agree. -/
theorem equalReadsMeanEqualMemories : Obligations.EqualReadsMeanEqualMemories := by
  intro n m m' hw hw' h
  induction m generalizing m' with
  | nil =>
    cases m' with
    | nil => rfl
    | cons d m' => exact absurd (h d.1).symm (Memory.peek_head_ne hw')
  | cons c m ih =>
    obtain ⟨a, v⟩ := c
    cases m' with
    | nil => exact absurd (h a) (Memory.peek_head_ne hw)
    | cons d m' =>
      obtain ⟨b, w⟩ := d
      have hab : a = b := Nat.le_antisymm
        (Memory.head_le_of_peek_ne hw (h b ▸ Memory.peek_head_ne hw'))
        (Memory.head_le_of_peek_ne hw' (h a ▸ Memory.peek_head_ne hw))
      subst hab
      have hvw : v = w := by simpa only [Memory.peek_head] using h a
      subst hvw
      have htail := Memory.peek_tail_eq hw hw' h
      obtain ⟨_, _, _, hwm⟩ := (Memory.wf_cons ..).mp hw
      obtain ⟨_, _, _, hwm'⟩ := (Memory.wf_cons ..).mp hw'
      rw [ih m' hwm hwm' htail]

/-! ## The pop after a push -/

/-- Settles O23: the pop reads the byte just pushed, and the incremented SP is the one before the push. -/
theorem popUndoesPush : Obligations.PopUndoesPush := by
  intro s t v h
  obtain ⟨hlt, rfl⟩ := State.push_eq_ok.mp h
  have hsp := State.pushed_x_sp_toNat s v
  refine State.pop_eq_ok.mpr ⟨hsp ▸ hlt, hsp ▸ (State.byteAt_pushed_pushAddr s v).symm, ?_⟩
  have hregs : ((s.pushed v).setX .sp ((s.pushed v).x .sp + 1)).regs = s.regs := by
    rw [State.pushed_x_sp, BitVec.sub_add_cancel]
    exact RegFile.set_set_get s.regs .sp _
  rw [State.setX_frame, hregs]
  rfl

/-! ## FL's byte image -/

theorem Flags.toNat_toByte (f : Flags) : f.toByte.toNat = 4 * f.l.toNat + 2 * f.g.toNat + f.e.toNat := by
  obtain ⟨e, g, l⟩ := f
  cases e <;> cases g <;> cases l <;> rfl

@[simp] theorem Flags.ofByte_toByte (f : Flags) : Flags.ofByte f.toByte = f := by
  obtain ⟨e, g, l⟩ := f
  cases e <;> cases g <;> cases l <;> rfl

/-- Settles O24: the image of each of the eight flag triples, and the bits of a byte as remainders. -/
theorem flagByteImage : Obligations.FlagByteImage := by
  refine ⟨fun f => ⟨f.toNat_toByte, f.ofByte_toByte⟩, fun b => ?_⟩
  simp [Flags.ofByte, BitVec.getLsbD, Nat.testBit_eq_decide_div_mod_eq]

end Sys2Proof.Machine
end

section
/-! PROOFS. The statements of 41_basic.md on HLT, and of 43_control.md on JMP and CALL. -/

namespace Sys2Proof.Machine

/-! ## HLT -/

theorem exec_hlt (s : State) :
    exec .hlt s =
      .next { s with status := .halted, err := none, pc := if s.params.hltAdvancesPc then s.pc + 1 else s.pc } := by
  simp only [exec, execHlt]
  split
  · rw [State.dispatch_ok, State.advance_carryOn, Instr.len_hlt]
  · rw [State.dispatch_ok, State.advance_jump]

/-- Settles O27: HLT has no operand, and its handler sets the PC only where the parameter keeps it. -/
theorem haltRule : Obligations.HaltRule :=
  ⟨fun p => decode_of_format_f0 (decodeKind_hlt p) rfl, exec_hlt⟩

/-! ## JMP -/

/-- Settles O32: JMP is the branch that is always taken. -/
theorem jumpRule : Obligations.JumpRule := by
  refine ⟨fun p => decode_of_format_fr (decodeKind_jmp p) rfl, rfl, fun s r => ?_, fun s a h => ?_⟩
  · exact State.dispatch_branch_taken (.jmp r.index) rfl r
  · exact State.dispatch_branch_bad s (.jmp a) true h

/-! ## CALL -/

theorem exec_call_index {s : State} (r : Reg) (h : s.pushAddr < s.params.memSize) :
    exec (.call r.index) s =
      .next { s.pushed (s.pc + 2) with pc := ((s.pushed (s.pc + 2)).x r).toNat } := by
  simp [exec, execCall, State.push_of_lt _ h]

theorem exec_call_of_ge {s : State} (r : Reg) (h : s.params.memSize ≤ s.pushAddr) :
    exec (.call r.index) s = .next (s.raise (.memoryOutOfRange s.pushAddr)) := by
  simp [exec, execCall, State.push_of_ge _ h]

theorem exec_call_bad (s : State) {a : Byte} (h : 8 ≤ a.toNat) :
    exec (.call a) s = .next (s.raise (.badRegisterIndex a)) := by
  simp [exec, execCall, checkReg_bad h]

/-- The target of CALL is read after the push: SP's is the decremented value. -/
theorem State.pushed_x_eq (s : State) (v : Nat) (r : Reg) :
    (s.pushed v).x r = if r = .sp then s.x .sp - 1 else s.x r :=
  RegFile.get_set s.regs .sp r _

/-- Settles O34: in range CALL is the push and a jump to a register as the push leaves it. -/
theorem callRule : Obligations.CallRule := by
  refine ⟨fun p => decode_of_format_fr (decodeKind_call p) rfl, fun s r hlt => ?_, fun s r => exec_call_of_ge r,
    fun s _ => exec_call_bad s⟩
  have hsp := State.pushed_x_sp s (s.pc + 2)
  have hother (q : Reg) (hq : q ≠ .sp) := State.pushed_x s (s.pc + 2) hq
  have htarget := congrArg BitVec.toNat (State.pushed_x_eq s (s.pc + 2) r)
  exact ⟨_, exec_call_index r hlt, hsp, hother, State.byteAt_pushed_pushAddr s _,
    fun _ => State.byteAt_pushed_other s _, htarget, rfl⟩

/-- Settles O48: CALL R7 jumps to the address it has pushed to, and the two bytes above are not the pushed one. -/
theorem callThroughStackPointerFetchesThePushedByte : Obligations.CallThroughStackPointerFetchesThePushedByte := by
  intro s t hlt h
  have hpush : s.pushAddr < s.params.memSize := Nat.lt_of_le_of_lt (Nat.le_add_right _ 2) hlt
  cases (exec_call_index .sp hpush).symm.trans h
  have hother (n : Nat) := State.byteAt_pushed_other s (s.pc + 2) (a := s.pushAddr + (n + 1)) (by simp)
  rw [State.pushed_x_sp_toNat]
  refine State.fetch_eq_ok.mpr ⟨hlt, ?_⟩
  rw [Fetched.mk.injEq]
  exact ⟨(State.byteAt_pushed_pushAddr s _).symm, (hother 0).symm, (hother 1).symm⟩

end Sys2Proof.Machine
end

section
/-! PROOFS. The statement of 70_reset_and_hazards.md on the load of an image. -/

namespace Sys2Proof.Machine

/-- A load within memory: each value at its address, every other byte and everything else as before. -/
theorem State.loadFrom_of_le {s : State} {k : Nat} {image : List Nat} (h : k + image.length ≤ s.params.memSize) :
    ∃ t, s.loadFrom k image = .ok t ∧
      (∀ j (hj : j < image.length), t.byteAt (k + j) = BitVec.ofNat 8 image[j]) ∧
      (∀ a, a < k ∨ k + image.length ≤ a → t.byteAt a = s.byteAt a) ∧ t = { s with mem := t.mem } := by
  induction image generalizing s k with
  | nil => exact ⟨s, rfl, by simp, fun _ _ => rfl, rfl⟩
  | cons v image ih =>
    rw [List.length_cons] at h
    have hw := State.memWrite_of_lt (s := s) (a := k) v (by omega)
    obtain ⟨t, ht, hin, hout, hframe⟩ :=
      ih (s := { s with mem := s.mem.poke k (BitVec.ofNat 8 v) }) (k := k + 1) (by dsimp only; omega)
    refine ⟨t, by rw [State.loadFrom, hw, ok_bind, ht], fun j hj => ?_, fun a ha => ?_, hframe⟩
    · cases j with
      | zero => exact (hout k (.inl (by omega))).trans (Memory.peek_poke_same ..)
      | succ j =>
        rw [← Nat.add_assoc, Nat.add_right_comm]
        exact hin j (Nat.lt_of_succ_lt_succ hj)
    · rw [List.length_cons] at ha
      exact (hout a (by omega)).trans (Memory.peek_poke_other _ _ (by omega))

/-- A load that runs past the end of memory fails. -/
theorem State.loadFrom_of_gt {s : State} {k : Nat} {image : List Nat} (hk : k ≤ s.params.memSize)
    (h : s.params.memSize < k + image.length) : ∃ e, s.loadFrom k image = .error e := by
  induction image generalizing s k with
  | nil => exact absurd h (Nat.not_lt.mpr hk)
  | cons v image ih =>
    rw [List.length_cons] at h
    rcases Nat.lt_or_ge k s.params.memSize with hlt | hge
    · have hw := State.memWrite_of_lt (s := s) v hlt
      rw [State.loadFrom, hw, ok_bind]
      exact ih hlt (by dsimp only; omega)
    · exact ⟨_, by rw [State.loadFrom, State.memWrite_of_ge v hge, error_bind]⟩

theorem State.load_of_idle {s : State} (h : s.status = .idle) (image : List Nat) :
    s.load image = (s.loadFrom 0 image).toOption := by
  simp only [State.load, h]

theorem State.load_of_ne_idle {s : State} (h : s.status ≠ .idle) (image : List Nat) : s.load image = none := by
  unfold State.load
  split
  · exact absurd ‹_› h
  · rfl
  · rfl

/-- Settles O54: an Idle load is the writes from address 0 on, which fit or fail at the end of memory. -/
theorem loadPlacesTheImage : Obligations.LoadPlacesTheImage := by
  intro s image
  refine ⟨fun hidle hle => ?_, fun hgt => ?_, fun hne => State.load_of_ne_idle hne image⟩
  · obtain ⟨t, ht, hin, hout, hframe⟩ := State.loadFrom_of_le (s := s) (k := 0) (image := image) (by omega)
    refine ⟨t, by rw [State.load_of_idle hidle, ht]; rfl, fun k hk => ?_, fun a ha => hout a (by omega), hframe⟩
    rw [← hin k hk, Nat.zero_add]
  · by_cases hidle : s.status = .idle
    · obtain ⟨e, he⟩ := State.loadFrom_of_gt (s := s) (image := image) (Nat.zero_le _) (by omega)
      rw [State.load_of_idle hidle, he]
      rfl
    · exact State.load_of_ne_idle hidle image

end Sys2Proof.Machine
end

section
/-! PROOFS. The statements of 44_interrupt.md on INT and IRET. -/

namespace Sys2Proof.Machine

/-! ## The option -/

theorem State.requirePresent_of_present {s : State} {i : Instr} (h : i.present s.params = true) :
    s.requirePresent i = .ok () :=
  if_pos h

theorem State.requirePresent_of_absent {s : State} {i : Instr} (h : i.present s.params = false) :
    s.requirePresent i = .error (.unknownOpcode (i.kind.opcode s.params)) :=
  if_neg (Bool.eq_false_iff.mp h)

theorem State.interruptToTake_eq_none_of_absent {s : State} (h : s.params.interrupts = false) :
    s.interruptToTake = none := by
  simp [State.interruptToTake, h]

theorem exec_int_of_absent {s : State} (a : Byte) (h : s.params.interrupts = false) :
    exec (.int a) s = .next (s.raise (.unknownOpcode 0x4A#8)) := by
  rw [exec, execInt, State.requirePresent_of_absent (i := .int a) h, error_bind, State.dispatch_error]
  rfl

theorem exec_iret_of_absent {s : State} (h : s.params.interrupts = false) :
    exec .iret s = .next (s.raise (.unknownOpcode 0x0B#8)) := by
  rw [exec, execIret, State.requirePresent_of_absent (i := .iret) h, error_bind, State.dispatch_error]
  rfl

/-- Settles O18: without the option there is no check, no row and no meaning of its instructions. -/
theorem absentInterruptsAreUnknown : Obligations.AbsentInterruptsAreUnknown := by
  intro s a h
  have hoff : ¬ s.params.interrupts = true := Bool.eq_false_iff.mp h
  exact ⟨State.interruptToTake_eq_none_of_absent h, (decodeKind_int _).trans (if_neg hoff),
    (decodeKind_iret _).trans (if_neg hoff), exec_int_of_absent a h, exec_iret_of_absent h⟩

/-! ## INT -/

/-- INT where the option is present: its handler after the first check. -/
theorem exec_int_of_present {s : State} (a : Byte) (h : s.params.interrupts = true) :
    exec (.int a) s = s.dispatch (.int a) (do
      let ra ← checkReg a
      if 8 ≤ (s.x ra).toNat then .error (.badInterruptNumber (s.x ra))
      else pure (s.setX .is (s.x .is ||| (1#8 <<< (s.x ra).toNat))).carryOn) := by
  rw [exec, execInt, State.requirePresent_of_present (i := .int a) h, ok_bind]

theorem exec_int_index {s : State} {r : Reg} (h : s.params.interrupts = true) (hn : (s.x r).toNat < 8) :
    exec (.int r.index) s =
      .next { s.setX .is (s.x .is ||| (1#8 <<< (s.x r).toNat)) with pc := s.pc + 2 } := by
  rw [exec_int_of_present _ h, checkReg_index, ok_bind, if_neg (Nat.not_le.mpr hn), pure_eq_ok, State.dispatch_ok,
    State.advance_carryOn, Instr.len_int]

theorem exec_int_of_ge {s : State} {r : Reg} (h : s.params.interrupts = true) (hn : 8 ≤ (s.x r).toNat) :
    exec (.int r.index) s = .next (s.raise (.badInterruptNumber (s.x r))) := by
  rw [exec_int_of_present _ h, checkReg_index, ok_bind, if_pos hn, State.dispatch_error]

theorem exec_int_bad {s : State} {a : Byte} (h : s.params.interrupts = true) (ha : 8 ≤ a.toNat) :
    exec (.int a) s = .next (s.raise (.badRegisterIndex a)) := by
  rw [exec_int_of_present _ h, checkReg_bad ha, error_bind, State.dispatch_error]

/-- The byte with only bit `n` set. -/
theorem getLsbD_one_shiftLeft {n j : Nat} (hn : n < 8) : (1#8 <<< n).getLsbD j = decide (j = n) := by
  rw [← BitVec.twoPow_eq, BitVec.getLsbD_twoPow]
  simp [hn, eq_comm]

/-- Settles O35: INT of a number below 8 sets its bit of IS; the other clauses are its errors. -/
theorem raiseInterruptRule : Obligations.RaiseInterruptRule := by
  refine ⟨fun p a rest h => ?_, fun s r h hn => ?_, fun s r => exec_int_of_ge, fun s a => exec_int_bad⟩
  · exact decode_of_format_fr ((decodeKind_int p).trans (if_pos h)) rfl a rest
  · refine ⟨_, exec_int_index h hn, fun j _ => ?_⟩
    rw [BitVec.getLsbD_or, getLsbD_one_shiftLeft hn]

/-! ## IRET -/

theorem exec_iret_of_present {s : State} (h : s.params.interrupts = true) :
    exec .iret s = s.dispatch .iret s.returnFromInterrupt := by
  rw [exec, execIret, State.requirePresent_of_present (i := .iret) h, ok_bind]

theorem exec_iret_of_lt {s : State} (h : s.params.interrupts = true)
    (hpop : ∀ k < 9, (s.x .sp + BitVec.ofNat 8 k).toNat < s.params.memSize) : exec .iret s = .next s.returned := by
  rw [exec_iret_of_present h, State.returnFromInterrupt_of_lt hpop, State.dispatch_ok]
  rfl

/-- The address of a pop, with the wrap modulo 256 written out (10_state.md R44). -/
theorem State.popByte_eq_mod (s : State) (k : Nat) : s.popByte k = s.byteAt (((s.x .sp).toNat + k) % 256) := by
  rw [State.popByte, BitVec.toNat_add, BitVec.toNat_ofNat, Nat.add_mod_mod]

/-- Settles O36: with the nine pops in range IRET leaves `s.returned`, the nine bytes in their places. -/
theorem interruptReturnRule : Obligations.InterruptReturnRule := by
  refine ⟨fun p rest h => ?_, fun s h hpop => ?_⟩
  · exact decode_of_format_f0 ((decodeKind_iret p).trans (if_pos h)) rfl rest
  · have hsp : s.x .sp + 9 = BitVec.ofNat 8 ((s.x .sp).toNat + 9) := BitVec.eq_of_toNat_eq (by simp)
    rw [exec_iret_of_lt h hpop, State.returned, hsp]
    simp only [State.popByte_eq_mod, Flags.ofByte]

/-! ## IRET out of range -/

/-- Pops into several registers in turn. -/
def State.popRegs (s : State) (rs : List Reg) : Except FatalError State :=
  rs.foldlM State.popReg s

/-- The last two pops of IRET, FL and the PC. -/
def State.popFlagsPc (s : State) : Except FatalError Handled := do
  let (f, s) ← s.pop
  let (target, s) ← State.pop { s with fl := Flags.ofByte f }
  pure ({ s with ie := true }.jump target.toNat)

theorem State.returnFromInterrupt_eq (s : State) :
    s.returnFromInterrupt = (s.popRegs [.r6, .r5, .r4, .r3, .r2, .r1, .r0] >>= State.popFlagsPc) := by
  simp only [State.returnFromInterrupt, State.popRegs, List.foldlM, bind_assoc, pure_bind]
  rfl

theorem State.popRegs_cons (s : State) (r : Reg) (rs : List Reg) :
    s.popRegs (r :: rs) = (s.popReg r >>= fun t => t.popRegs rs) := rfl

theorem State.pop_of_ge {s : State} (h : s.params.memSize ≤ (s.x .sp).toNat) :
    s.pop = .error (.memoryOutOfRange (s.x .sp).toNat) := by
  rw [State.pop, State.memRead_of_ge h, error_bind]

theorem State.popReg_of_ge {s : State} (r : Reg) (h : s.params.memSize ≤ (s.x .sp).toNat) :
    s.popReg r = .error (.memoryOutOfRange (s.x .sp).toNat) := by
  rw [State.popReg, State.pop_of_ge h, error_bind]

/-- A pop in range into a register other than SP: the SP of the next pop, and the capacity. -/
theorem State.popReg_of_lt {s : State} {r : Reg} (hr : .sp ≠ r) (h : (s.x .sp).toNat < s.params.memSize) :
    ∃ t, s.popReg r = .ok t ∧ t.params = s.params ∧ t.x .sp = s.x .sp + 1 := by
  refine ⟨_, State.popReg_eq_ok.mpr ⟨h, rfl⟩, rfl, ?_⟩
  rw [State.x_setX_other _ _ hr, State.x_setX_same]

theorem sp_add_one_add (sp : Byte) (k : Nat) : sp + 1 + BitVec.ofNat 8 k = sp + BitVec.ofNat 8 (k + 1) := by
  have hsucc : BitVec.ofNat 8 (k + 1) = BitVec.ofNat 8 k + 1 := BitVec.ofNat_add k 1
  linear_combination -hsucc

/-- Pops in range into registers other than SP succeed, and SP counts them. -/
theorem State.popRegs_of_lt {s : State} {rs : List Reg} (hrs : .sp ∉ rs)
    (h : ∀ k < rs.length, (s.x .sp + BitVec.ofNat 8 k).toNat < s.params.memSize) :
    ∃ t, s.popRegs rs = .ok t ∧ t.params = s.params ∧ t.x .sp = s.x .sp + BitVec.ofNat 8 rs.length := by
  induction rs generalizing s with
  | nil => exact ⟨s, rfl, rfl, by simp⟩
  | cons r rs ih =>
    obtain ⟨hr, hrs⟩ := List.ne_and_not_mem_of_not_mem_cons hrs
    obtain ⟨u, hu, hparams, hsp⟩ := State.popReg_of_lt hr (by simpa using h 0 (Nat.succ_pos _))
    obtain ⟨t, ht, htparams, htsp⟩ := ih hrs (s := u) fun k hk => by
      rw [hsp, hparams, sp_add_one_add]
      exact h (k + 1) (Nat.succ_lt_succ hk)
    refine ⟨t, by rw [State.popRegs_cons, hu, ok_bind, ht], htparams.trans hparams, ?_⟩
    rw [htsp, hsp, sp_add_one_add, List.length_cons]

/-- The first pop out of range is the error. -/
theorem State.popRegs_of_ge {s : State} {rs : List Reg} {k : Nat} (hrs : .sp ∉ rs) (hk : k < rs.length)
    (hlt : ∀ j < k, (s.x .sp + BitVec.ofNat 8 j).toNat < s.params.memSize)
    (hge : s.params.memSize ≤ (s.x .sp + BitVec.ofNat 8 k).toNat) :
    s.popRegs rs = .error (.memoryOutOfRange (s.x .sp + BitVec.ofNat 8 k).toNat) := by
  induction rs generalizing s k with
  | nil => cases hk
  | cons r rs ih =>
    obtain ⟨hr, hrs⟩ := List.ne_and_not_mem_of_not_mem_cons hrs
    rw [State.popRegs_cons]
    cases k with
    | zero =>
      rw [BitVec.add_zero] at hge ⊢
      rw [State.popReg_of_ge r hge, error_bind]
    | succ k =>
      obtain ⟨u, hu, hparams, hsp⟩ := State.popReg_of_lt hr (by simpa using hlt 0 (Nat.succ_pos _))
      rw [← sp_add_one_add, ← hsp, ← hparams] at hge
      rw [← sp_add_one_add, ← hsp, hu, ok_bind]
      refine ih hrs (Nat.lt_of_succ_lt_succ hk) (fun j hj => ?_) hge
      rw [hsp, hparams, sp_add_one_add]
      exact hlt (j + 1) (Nat.succ_lt_succ hj)

theorem State.popFlagsPc_of_ge {s : State} (h : s.params.memSize ≤ (s.x .sp).toNat) :
    s.popFlagsPc = .error (.memoryOutOfRange (s.x .sp).toNat) := by
  rw [State.popFlagsPc, State.pop_of_ge h, error_bind]

theorem State.popFlagsPc_of_lt_of_ge {s : State} (hlt : (s.x .sp).toNat < s.params.memSize)
    (hge : s.params.memSize ≤ (s.x .sp + 1).toNat) :
    s.popFlagsPc = .error (.memoryOutOfRange (s.x .sp + 1).toNat) := by
  rw [State.popFlagsPc, State.pop_eq_ok.mpr ⟨hlt, rfl, rfl⟩, ok_bind]
  have hpop := State.pop_of_ge
    (s := { s.setX .sp (s.x .sp + 1) with fl := Flags.ofByte (s.byteAt (s.x .sp).toNat) }) hge
  exact congrArg (· >>= _) hpop

/-- Settles O37: the first pop out of range is among the seven of the registers, or is that of FL or of the PC. -/
theorem interruptReturnOutOfRange : Obligations.InterruptReturnOutOfRange := by
  intro s k h hk hlt hge
  rw [exec_iret_of_present h, State.returnFromInterrupt_eq]
  have hrs : Reg.sp ∉ [Reg.r6, .r5, .r4, .r3, .r2, .r1, .r0] := by decide
  rcases Nat.lt_or_ge k 7 with hk7 | hk7
  · rw [State.popRegs_of_ge hrs hk7 hlt hge, error_bind, State.dispatch_error]
  · obtain ⟨t, ht, hparams, hsp⟩ := State.popRegs_of_lt hrs fun j hj => hlt j (hj.trans_le hk7)
    rw [ht, ok_bind]
    rcases (by omega : k = 7 ∨ k = 8) with rfl | rfl
    · have hfl := State.popFlagsPc_of_ge (s := t) (by rw [hsp, hparams]; exact hge)
      rw [hfl, hsp, State.dispatch_error]
      rfl
    · have hsp8 : t.x .sp + 1 = s.x .sp + BitVec.ofNat 8 8 := by rw [hsp, BitVec.add_assoc]; rfl
      have hpc := State.popFlagsPc_of_lt_of_ge (s := t) (by rw [hsp, hparams]; exact hlt 7 (by decide))
        (by rw [hsp8, hparams]; exact hge)
      rw [hpc, hsp8, State.dispatch_error]

end Sys2Proof.Machine
end

section
/-! PROOFS. The statements of 60_exceptions.md section 2 on the interrupt check, the entry and the return, and that of
00_scope.md R7 on the bounds. -/

namespace Sys2Proof.Machine

/-! ## The interrupt check -/

theorem getElem_fin_interruptNumbers : ∀ i : Fin interruptNumbers.length, interruptNumbers[i].val = i.val := by
  decide

theorem getElem_interruptNumbers {j : Nat} (h : j < interruptNumbers.length) : interruptNumbers[j].val = j :=
  getElem_fin_interruptNumbers ⟨j, h⟩

theorem mem_interruptNumbers (i : Fin 8) : i ∈ interruptNumbers := by
  revert i
  decide

/-- The first interrupt number with a property is the lowest. -/
theorem find?_interruptNumbers_eq_some_iff {pending : Nat → Bool} {i : Fin 8} :
    interruptNumbers.find? (fun n => pending n.val) = some i ↔
      pending i.val = true ∧ ∀ j < i.val, pending j = false := by
  rw [List.find?_eq_some_iff_getElem]
  refine and_congr_right fun _ => ⟨?_, fun hlow => ?_⟩
  · rintro ⟨n, hn, rfl, hlow⟩ j hj
    rw [getElem_interruptNumbers] at hj
    simpa [getElem_interruptNumbers] using hlow j hj
  · refine ⟨i.val, i.isLt, Fin.ext (getElem_interruptNumbers _), fun j hj => ?_⟩
    simpa [getElem_interruptNumbers] using hlow j hj

theorem find?_interruptNumbers_eq_none_iff {pending : Nat → Bool} :
    interruptNumbers.find? (fun n => pending n.val) = none ↔ ∀ j < 8, pending j = false := by
  rw [List.find?_eq_none]
  constructor
  · intro h j hj
    simpa using h ⟨j, hj⟩ (mem_interruptNumbers _)
  · intro h n _
    simp [h n.val n.isLt]

/-- The check while interrupts are present and IE is set. -/
theorem State.interruptToTake_of_enabled {s : State} (hint : s.params.interrupts = true) (hie : s.ie = true) :
    s.interruptToTake =
      interruptNumbers.find? (fun n => (s.x .im).getLsbD n.val && (s.x .is).getLsbD n.val) := by
  simp [State.interruptToTake, hint, hie]

theorem State.interruptToTake_eq_none_of_disabled {s : State} (hie : s.ie = false) : s.interruptToTake = none := by
  simp [State.interruptToTake, hie]

/-- Settles O49: without the option or with IE clear there is none; else it is the first pending number of the list. -/
theorem lowestEnabledPendingInterrupt : Obligations.LowestEnabledPendingInterrupt := by
  intro s
  cases hint : s.params.interrupts with
  | false => simp [State.interruptToTake_eq_none_of_absent hint]
  | true =>
    cases hie : s.ie with
    | false => simp [State.interruptToTake_eq_none_of_disabled hie]
    | true =>
      rw [State.interruptToTake_of_enabled hint hie]
      refine ⟨fun i => ?_, ?_⟩
      · rw [find?_interruptNumbers_eq_some_iff (pending := fun n => (s.x .im).getLsbD n && (s.x .is).getLsbD n),
          Bool.and_eq_true]
        simp [and_assoc]
      · rw [find?_interruptNumbers_eq_none_iff (pending := fun n => (s.x .im).getLsbD n && (s.x .is).getLsbD n)]
        simp

/-! ## The pushes of an entry -/

theorem step_eq_enterInterrupt {s : State} {i : Fin 8} (hrun : s.status = .running)
    (hi : s.interruptToTake = some i) : step s = s.commit (s.enterInterrupt i) := by
  simp only [step, State.cycle, hrun, State.tick, hi]

/-- The nine bytes an entry saves, in the order of its pushes (60_exceptions.md R215). -/
def State.savedBytes (s : State) (i : Fin 8) : List Byte :=
  [BitVec.ofNat 8 s.pc, s.fl.toByte, s.x .r0, s.x .r1, s.x .r2, s.x .r3, s.x .r4, s.x .r5,
    s.x .is &&& ~~~(1#8 <<< i.val)]

theorem State.map_entryValues (s : State) (i : Fin 8) :
    (s.entryValues i).map (BitVec.ofNat 8) = s.savedBytes i := by
  simp only [State.entryValues, List.map, BitVec.ofNat_toNat, BitVec.setWidth_eq]
  rfl

/-- The state an entry with all its accesses in range leaves. -/
def State.entered (s : State) (i : Fin 8) : State :=
  { s.entryPushed i with pc := ((s.entryPushed i).byteAt (s.params.vectorBase + i.val)).toNat }

theorem step_eq_entered {s : State} {i : Fin 8} (hrun : s.status = .running) (hi : s.interruptToTake = some i)
    (hpush : ∀ k < 9, (s.x .sp - 1 - BitVec.ofNat 8 k).toNat < s.params.memSize)
    (hvec : s.params.vectorBase + i.val < s.params.memSize) : step s = .next (s.entered i) := by
  rw [step_eq_enterInterrupt hrun hi, State.enterInterrupt_of_lt hpush hvec]
  rfl

theorem State.entered_frame (s : State) (i : Fin 8) :
    s.entered i =
      { s with regs := (s.entered i).regs, ie := false, mem := (s.entered i).mem, pc := (s.entered i).pc } := by
  rw [State.entered, State.entryPushed, State.pushedAll_frame]
  rfl

theorem State.entered_params (s : State) (i : Fin 8) : (s.entered i).params = s.params := by
  rw [State.entered_frame]

theorem State.entered_status (s : State) (i : Fin 8) : (s.entered i).status = s.status := by
  rw [State.entered_frame]

theorem State.entered_x (s : State) (i : Fin 8) {r : Reg} (his : r ≠ .is) (hsp : r ≠ .sp) :
    (s.entered i).x r = s.x r :=
  (State.pushedAll_x _ _ hsp).trans (State.entryStart_x s i his)

theorem State.entryStart_x_is (s : State) (i : Fin 8) :
    (s.entryStart i).x .is = s.x .is &&& ~~~(1#8 <<< i.val) :=
  State.x_setX_same s .is (s.x .is &&& ~~~(1#8 <<< i.val))

theorem State.entered_x_is (s : State) (i : Fin 8) : (s.entered i).x .is = s.x .is &&& ~~~(1#8 <<< i.val) := by
  rw [← State.entryStart_x_is]
  exact State.pushedAll_x (s.entryStart i) (s.entryValues i) (by decide)

theorem State.entered_x_sp (s : State) (i : Fin 8) : (s.entered i).x .sp = s.x .sp - 9 := by
  rw [← State.entryStart_x s i (r := .sp) (by decide)]
  exact State.pushedAll_x_sp (s.entryStart i) (s.entryValues i)

theorem State.byteAt_entered (s : State) (i : Fin 8) (k : Nat) (hk : k < 9) :
    (s.entered i).byteAt (s.x .sp - 1 - BitVec.ofNat 8 k).toNat = (s.savedBytes i)[k] := by
  rw [← State.entryStart_x s i (r := .sp) (by decide)]
  simp only [← State.map_entryValues, List.getElem_map]
  exact State.byteAt_pushedAll (s.entryStart i) (s.entryValues i) (by decide : 9 ≤ 256) k hk

theorem State.byteAt_entered_other (s : State) (i : Fin 8) {a : Nat}
    (h : ∀ k < 9, a ≠ (s.x .sp - 1 - BitVec.ofNat 8 k).toNat) : (s.entered i).byteAt a = s.byteAt a := by
  rw [← State.entryStart_x s i (r := .sp) (by decide)] at h
  exact State.byteAt_pushedAll_other (s.entryStart i) (s.entryValues i) a h

/-- The serviced bit is cleared and no other (60_exceptions.md R215). -/
theorem getLsbD_and_not_one_shiftLeft (b : Byte) (i : Fin 8) {j : Nat} (hj : j < 8) :
    (b &&& ~~~(1#8 <<< i.val)).getLsbD j = (b.getLsbD j && decide (j ≠ i.val)) := by
  rw [BitVec.getLsbD_and, BitVec.getLsbD_not, getLsbD_one_shiftLeft i.isLt]
  simp [hj]

/-- Settles O50: with its accesses in range the entry leaves `s.entered i`, which the lemmas above describe. -/
theorem interruptEntryRule : Obligations.InterruptEntryRule := by
  intro s i hrun hi hpush hvec
  refine ⟨s.entered i, step_eq_entered hrun hi hpush hvec, fun r => State.entered_x s i, fun j hj => ?_,
    State.entered_x_sp s i, rfl, fun k hk => ?_, fun a => State.byteAt_entered_other s i, rfl, ?_⟩
  · rw [State.entered_x_is, getLsbD_and_not_one_shiftLeft _ i hj]
  · simp only [State.entered_x_is]
    exact State.byteAt_entered s i k hk
  · exact State.entered_frame s i

/-! ## The entry out of range -/

/-- Pushes in turn, each of a value read from the state it pushes onto. -/
def State.pushEach (s : State) (reads : List (State → Nat)) : Except FatalError State :=
  reads.foldlM (fun t read => t.push (read t)) s

/-- What an interrupt entry reads for its nine pushes, in order (60_exceptions.md R215). -/
def entryReads : List (State → Nat) :=
  [(·.pc), (·.fl.toByte.toNat), fun t => (t.x .r0).toNat, fun t => (t.x .r1).toNat, fun t => (t.x .r2).toNat,
    fun t => (t.x .r3).toNat, fun t => (t.x .r4).toNat, fun t => (t.x .r5).toNat, fun t => (t.x .r6).toNat]

/-- The last access of an interrupt entry: the PC from the vector. -/
def State.jumpToVector (s : State) (i : Fin 8) : Except FatalError State := do
  let target ← s.memRead (s.params.vectorBase + i.val)
  pure { s with pc := target.toNat }

theorem State.enterInterrupt_eq (s : State) (i : Fin 8) :
    s.enterInterrupt i = ((s.entryStart i).pushEach entryReads >>= (·.jumpToVector i)) := by
  simp only [State.pushEach, entryReads, List.foldlM, bind_assoc, pure_bind]
  rfl

theorem State.pushEach_cons (s : State) (read : State → Nat) (reads : List (State → Nat)) :
    s.pushEach (read :: reads) = (s.push (read s) >>= (·.pushEach reads)) := rfl

theorem sp_sub_one_sub (sp : Byte) (k : Nat) :
    sp - 1 - 1 - BitVec.ofNat 8 k = sp - 1 - BitVec.ofNat 8 (k + 1) := by
  have hsucc : BitVec.ofNat 8 (k + 1) = BitVec.ofNat 8 k + 1 := BitVec.ofNat_add k 1
  linear_combination hsucc

theorem State.pushAddr_lt_of_zero {s : State} (h : (s.x .sp - 1 - BitVec.ofNat 8 0).toNat < s.params.memSize) :
    s.pushAddr < s.params.memSize := by
  rwa [BitVec.sub_zero] at h

/-- Pushes in range succeed. -/
theorem State.pushEach_of_lt {s : State} {reads : List (State → Nat)}
    (h : ∀ k < reads.length, (s.x .sp - 1 - BitVec.ofNat 8 k).toNat < s.params.memSize) :
    ∃ t, s.pushEach reads = .ok t ∧ t.params = s.params := by
  induction reads generalizing s with
  | nil => exact ⟨s, rfl, rfl⟩
  | cons read reads ih =>
    rw [State.pushEach_cons, State.push_of_lt _ (State.pushAddr_lt_of_zero (h 0 (Nat.succ_pos _))), ok_bind]
    refine ih fun k hk => ?_
    rw [State.pushed_x_sp, sp_sub_one_sub]
    exact h (k + 1) (Nat.succ_lt_succ hk)

/-- The first push out of range is the error. -/
theorem State.pushEach_of_ge {s : State} {reads : List (State → Nat)} {k : Nat} (hk : k < reads.length)
    (hlt : ∀ j < k, (s.x .sp - 1 - BitVec.ofNat 8 j).toNat < s.params.memSize)
    (hge : s.params.memSize ≤ (s.x .sp - 1 - BitVec.ofNat 8 k).toNat) :
    s.pushEach reads = .error (.memoryOutOfRange (s.x .sp - 1 - BitVec.ofNat 8 k).toNat) := by
  induction reads generalizing s k with
  | nil => cases hk
  | cons read reads ih =>
    rw [State.pushEach_cons]
    cases k with
    | zero =>
      rw [BitVec.sub_zero] at hge ⊢
      rw [State.push_of_ge _ hge, error_bind]
      rfl
    | succ k =>
      rw [State.push_of_lt _ (State.pushAddr_lt_of_zero (hlt 0 (Nat.succ_pos _))), ok_bind, ← sp_sub_one_sub]
      rw [← sp_sub_one_sub] at hge
      refine State.pushed_x_sp s (read s) ▸ ih (Nat.lt_of_succ_lt_succ hk) (fun j hj => ?_) ?_
      · rw [State.pushed_x_sp, sp_sub_one_sub]
        exact hlt (j + 1) (Nat.succ_lt_succ hj)
      · rw [State.pushed_x_sp]
        exact hge

/-- Settles O51: the first push out of range is the error; after nine in range it is the vector read. -/
theorem interruptEntryOutOfRange : Obligations.InterruptEntryOutOfRange := by
  intro s i hrun hi
  have hstart : (s.entryStart i).x .sp = s.x .sp := State.entryStart_x s i (by decide)
  rw [step_eq_enterInterrupt hrun hi, State.enterInterrupt_eq, ← hstart]
  refine ⟨fun k hk hlt hge => ?_, fun hlt hge => ?_⟩
  · rw [State.pushEach_of_ge hk hlt hge, error_bind]
    rfl
  · obtain ⟨t, ht, hparams⟩ := State.pushEach_of_lt (s := s.entryStart i) (reads := entryReads) hlt
    have hvec : t.params.memSize ≤ t.params.vectorBase + i.val := hparams.symm ▸ hge
    rw [ht, ok_bind, State.jumpToVector, State.memRead_of_ge hvec, error_bind, hparams]
    rfl

/-! ## The bounds of the parameters -/

theorem State.interrupts_of_interruptToTake {s : State} {i : Fin 8} (h : s.interruptToTake = some i) :
    s.params.interrupts = true := by
  by_contra habsent
  rw [State.interruptToTake_eq_none_of_absent (Bool.eq_false_iff.mpr habsent)] at h
  cases h

theorem State.vector_lt_of_legal {s : State} (legal : s.params.legal) {i : Fin 8} (h : s.interruptToTake = some i) :
    s.params.vectorBase + i.val < s.params.memSize := by
  rcases legal.2 with habsent | hvec
  · rw [State.interrupts_of_interruptToTake h] at habsent
    cases habsent
  · omega

/-- Settles O55: the vector is in range, so an entry whose nine pushes are in range does not raise. -/
theorem boundsKeepStackAndVectorsInMemory : Obligations.BoundsKeepStackAndVectorsInMemory := by
  intro s legal
  refine ⟨fun hsp => ?_, fun i => State.vector_lt_of_legal legal, fun i e hrun hi hstep => ?_⟩
  · rw [State.pushAddr, hsp]
    exact Nat.lt_of_lt_of_le (by decide) legal.1
  · by_contra hpush
    push Not at hpush
    have hent := step_eq_entered hrun hi hpush (State.vector_lt_of_legal legal hi)
    have hstatus := congrArg State.status (Host.Outcome.next.inj (hstep.symm.trans hent))
    simp [State.entered_status, hrun] at hstatus

/-! ## The return to the interrupted program -/

/-- Pop `j` and push `k` of the nine use the same address when they are each other's mirror. -/
theorem sp_sub_nine_add (sp : Byte) {j k : Nat} (h : j + k = 8) :
    sp - 9 + BitVec.ofNat 8 j = sp - 1 - BitVec.ofNat 8 k := by
  have hsum : BitVec.ofNat 8 j + BitVec.ofNat 8 k = 8 := by rw [← BitVec.ofNat_add, h]; rfl
  linear_combination hsum

/-- IRET reads the saved bytes in the order opposite to the entry's. -/
theorem State.popByte_of_saved {s u : State} {i : Fin 8} (hsp : u.x .sp = (s.entered i).x .sp)
    (hsaved : ∀ k < 9, u.byteAt ((s.entered i).x .sp + BitVec.ofNat 8 k).toNat =
      (s.entered i).byteAt ((s.entered i).x .sp + BitVec.ofNat 8 k).toNat) (k : Nat) (hk : k < 9) :
    u.popByte (8 - k) = (s.savedBytes i)[k] := by
  have haddr : (s.entered i).x .sp + BitVec.ofNat 8 (8 - k) = s.x .sp - 1 - BitVec.ofNat 8 k := by
    rw [State.entered_x_sp]
    exact sp_sub_nine_add _ (by omega)
  rw [State.popByte, hsp, hsaved (8 - k) (by omega), haddr, State.byteAt_entered s i k hk]

/-- Settles O52: the nine pops are in range where the pushes were, and each gives back the byte saved for its place. -/
theorem returnRestoresTheInterruptedProgram : Obligations.ReturnRestoresTheInterruptedProgram := by
  intro s t u i hrun hi hpush hvec hstep hparams hsp hsaved
  have ht : t = s.entered i := Host.Outcome.next.inj (hstep.symm.trans (step_eq_entered hrun hi hpush hvec))
  subst ht
  have hup : u.params = s.params := hparams.trans (State.entered_params s i)
  have hpop : ∀ k < 9, (u.x .sp + BitVec.ofNat 8 k).toNat < u.params.memSize := by
    intro k hk
    rw [hsp, State.entered_x_sp, sp_sub_nine_add _ (by omega : k + (8 - k) = 8), hup]
    exact hpush (8 - k) (by omega)
  have hbyte := State.popByte_of_saved hsp hsaved
  refine ⟨u.returned, exec_iret_of_lt (hup ▸ State.interrupts_of_interruptToTake hi) hpop, fun r hr => ?_,
    fun j hj => ?_, ?_, ?_, rfl, rfl⟩
  · cases r with
    | r0 => exact hbyte 2 (by decide)
    | r1 => exact hbyte 3 (by decide)
    | r2 => exact hbyte 4 (by decide)
    | r3 => exact hbyte 5 (by decide)
    | r4 => exact hbyte 6 (by decide)
    | r5 => exact hbyte 7 (by decide)
    | r6 => exact absurd rfl hr
    | r7 =>
      have hback : u.x .sp + 9 = s.x .sp := by rw [hsp, State.entered_x_sp, BitVec.sub_add_cancel]
      exact hback
  · have his : u.returned.x .is = s.x .is &&& ~~~(1#8 <<< i.val) := hbyte 8 (by decide)
    rw [his, getLsbD_and_not_one_shiftLeft _ i hj]
  · exact (congrArg Flags.ofByte (hbyte 1 (by decide))).trans (Flags.ofByte_toByte s.fl)
  · exact (congrArg BitVec.toNat (hbyte 0 (by decide))).trans (BitVec.toNat_ofNat s.pc 8)

/-! ## No nesting -/

/-- Of the instructions only IRET touches IE, and it sets it. -/
theorem Ran.ie_cases {s t : State} {i : Instr} (h : Ran s i t) : t.ie = s.ie ∨ (i = .iret ∧ t.ie = true) := by
  cases h with
  | iret => exact .inr ⟨rfl, rfl⟩
  | reg | prn | hlt | cmp | jmp | noJmp | call | int => exact .inl rfl

theorem State.enterInterrupt_ie {s t : State} {i : Fin 8} (h : s.enterInterrupt i = .ok t) : t.ie = false := by
  rw [State.enterInterrupt_frame h]

/-- How a step can change IE: an entry clears it, an IRET that ran sets it. -/
theorem step_ie_cases {s t : State} (h : step s = .next t) :
    t.ie = s.ie ∨
    (t.ie = false ∧ ∃ i, s.interruptToTake = some i ∧ s.enterInterrupt i = .ok t) ∨
    (t.ie = true ∧ ∃ f, s.fetch = .ok f ∧ decodeFetched s.params f.ir f.opA f.opB = some .iret ∧
      exec .iret s = .next t) := by
  rcases step_cases h with ⟨_, rfl⟩ | ⟨_, rfl⟩ | ⟨hrun, _⟩
  · exact .inl (State.start_ie s)
  · exact .inl rfl
  · rcases step_cases_running hrun h with ⟨e, rfl⟩ | ⟨i, hi, hent⟩ | ⟨f, i, _, hf, hd, hx, hran⟩
    · exact .inl (State.raise_ie s e)
    · exact .inr (.inl ⟨State.enterInterrupt_ie hent, i, hi, hent⟩)
    · rcases hran.ie_cases with hie | ⟨rfl, hie⟩
      · exact .inl hie
      · exact .inr (.inr ⟨hie, f, hf, hd, hx⟩)

/-- Settles O53: each change of IE leaves one case. -/
theorem interruptsNeverNest : Obligations.InterruptsNeverNest := by
  intro s t h
  refine ⟨State.interruptToTake_eq_none_of_disabled, fun hs ht => ?_, fun hs ht => ?_⟩
  · rcases step_ie_cases h with hie | ⟨hie, _⟩ | ⟨_, hiret⟩
    · simp [hs, ht] at hie
    · simp [ht] at hie
    · exact hiret
  · rcases step_ie_cases h with hie | ⟨_, hent⟩ | ⟨hie, _⟩
    · simp [hs, ht] at hie
    · exact hent
    · simp [ht] at hie

end Sys2Proof.Machine
end

section
/-! PROOFS. The frame statements, and that of 10_state.md R24 on the register-index check, over all instructions. -/

namespace Sys2Proof.Machine

/-! ## The first bad register index -/

theorem bad_of_find?_one {a b : Byte} (h : [a].find? (fun c => decide (8 ≤ c.toNat)) = some b) :
    8 ≤ a.toNat ∧ a = b := by
  simpa using h

/-- The first bad index of two operands is the first one, or the second after a first that names a register. -/
theorem bad_of_find?_two {a a' b : Byte} (h : [a, a'].find? (fun c => decide (8 ≤ c.toNat)) = some b) :
    (8 ≤ a.toNat ∧ a = b) ∨ (∃ r : Reg, a = r.index) ∧ 8 ≤ a'.toNat ∧ a' = b := by
  rcases Nat.lt_or_ge a.toNat 8 with hlt | hge
  · obtain ⟨r, _, hr⟩ := ofByte_of_lt hlt
    rw [List.find?_cons_of_neg (by simpa using hlt)] at h
    exact .inr ⟨⟨r, hr⟩, bad_of_find?_one h⟩
  · rw [List.find?_cons_of_pos (by simpa using hge)] at h
    exact .inl ⟨hge, Option.some.inj h⟩

/-- The index check of a one-register instruction, whose bad operand is `b`. -/
theorem raises_bad_of_find?_one {s : State} {o : Host.Outcome State Fault Refusal} {a b : Byte}
    (h : [a].find? (fun c => decide (8 ≤ c.toNat)) = some b)
    (hraise : 8 ≤ a.toNat → o = .next (s.raise (.badRegisterIndex a))) :
    o = .next (s.raise (.badRegisterIndex b)) := by
  obtain ⟨hbad, rfl⟩ := bad_of_find?_one h
  exact hraise hbad

/-- The index check of a two-register ALU instruction, whose first bad operand is `b`. -/
theorem State.dispatch_aluTwo_bad {s : State} (i : Instr) (op : AluOp) {a a' b : Byte}
    (h : [a, a'].find? (fun c => decide (8 ≤ c.toNat)) = some b) :
    s.dispatch i (s.aluTwo op a a') = .next (s.raise (.badRegisterIndex b)) := by
  rcases bad_of_find?_two h with ⟨hbad, rfl⟩ | ⟨⟨r, rfl⟩, hbad, rfl⟩
  · exact State.dispatch_aluTwo_bad_first s i op a' hbad
  · exact State.dispatch_aluTwo_bad_second s i op r hbad

/-- Settles O38, by the operands of each instruction: none, one, or two that the alu handler checks in order. -/
theorem firstBadRegisterIndexIsRaised : Obligations.FirstBadRegisterIndexIsRaised := by
  intro s i b hpresent h
  cases i with
  | hlt | iret => cases h
  | mul a c => exact State.dispatch_aluTwo_bad (.mul a c) .mul h
  | add a c => exact State.dispatch_aluTwo_bad (.add a c) .add h
  | and a c => exact State.dispatch_aluTwo_bad (.and a c) .and h
  | cmp a c => exact State.dispatch_aluTwo_bad (.cmp a c) .cmp h
  | div a c => exact State.dispatch_aluTwo_bad (.div a c) .div h
  | ldi a imm => exact raises_bad_of_find?_one h (exec_ldi_bad s imm)
  | prn a => exact raises_bad_of_find?_one h (exec_prn_bad s)
  | inc a => exact raises_bad_of_find?_one h (State.dispatch_aluOne_bad s (.inc a) .inc)
  | dec a => exact raises_bad_of_find?_one h (State.dispatch_aluOne_bad s (.dec a) .dec)
  | jmp a => exact raises_bad_of_find?_one h (State.dispatch_branch_bad s (.jmp a) true)
  | jeq a => exact raises_bad_of_find?_one h (State.dispatch_branch_bad s (.jeq a) s.fl.e)
  | jne a => exact raises_bad_of_find?_one h (State.dispatch_branch_bad s (.jne a) (!s.fl.e))
  | call a => exact raises_bad_of_find?_one h (exec_call_bad s)
  | int a => exact raises_bad_of_find?_one h (exec_int_bad hpresent)

/-! ## Registers -/

theorem State.x_setX_of_index_ne (s : State) {r q : Reg} (v : Byte) (h : q.index ≠ r.index) :
    (s.setX r v).x q = s.x q :=
  State.x_setX_other s v fun hqr => h (congrArg Reg.index hqr)

/-- Settles O39: a raise writes no register, and each way to run writes the one the statement leaves out. -/
theorem registerFrame : Obligations.RegisterFrame := by
  intro s t i r h
  rcases exec_cases h with ⟨e, rfl⟩ | hran
  · cases i with
    | iret => trivial
    | prn | hlt | cmp | jmp | jeq | jne => rfl
    | ldi | mul | add | and | div | inc | dec | call | int => exact fun _ => rfl
  · cases hran with
    | reg i q v hi =>
      rcases hi with ⟨imm, rfl⟩ | ⟨b, rfl | rfl | rfl | rfl⟩ | rfl | rfl <;>
        exact State.x_setX_of_index_ne s v
    | prn | hlt | cmp => rfl
    | jmp q i hi => rcases hi with rfl | ⟨rfl, _⟩ | ⟨rfl, _⟩ <;> rfl
    | noJmp q i hi => rcases hi with ⟨rfl, _⟩ | ⟨rfl, _⟩ <;> rfl
    | call => exact State.pushed_x s (s.pc + 2)
    | int q v => exact State.x_setX_other s v
    | iret => trivial

/-! ## Memory -/

theorem Ran.mem_eq {s t : State} {i : Instr} (h : Ran s i t) (hi : ∀ a, i ≠ .call a) : t.mem = s.mem := by
  cases h with
  | call r => exact absurd rfl (hi r.index)
  | reg | prn | hlt | cmp | jmp | noJmp | int | iret => rfl

/-- The one byte an instruction can change is the one a push would write. -/
theorem Ran.byteAt_of_ne {s t : State} {i : Instr} (h : Ran s i t) {c : Nat} (hc : c ≠ s.pushAddr) :
    t.byteAt c = s.byteAt c := by
  cases h with
  | call => exact State.byteAt_pushed_other s _ hc
  | reg | prn | hlt | cmp | jmp | noJmp | int | iret => rfl

/-- Settles O40: a raise writes no memory, nor does any instruction that ran but CALL. -/
theorem memoryFrame : Obligations.MemoryFrame := by
  intro s t i h
  rcases exec_cases h with ⟨e, rfl⟩ | hran
  · exact ⟨fun _ _ _ _ _ _ => rfl, fun _ _ => rfl⟩
  · refine ⟨fun _ _ a ha c hc => hran.byteAt_of_ne (ha ▸ hc), fun hi c => ?_⟩
    exact congrArg (Memory.peek · c) (hran.mem_eq hi)

/-! ## IE, output, status and error record -/

/-- Settles O41: the parts of the control state that an instruction that ran changes are IRET's, PRN's and HLT's. -/
theorem controlStateFrame : Obligations.ControlStateFrame := by
  intro s t i h
  rcases exec_cases h with ⟨e, rfl⟩ | hran
  · exact ⟨fun _ => rfl, fun _ => rfl, fun _ => .inr ⟨e, rfl⟩⟩
  · refine ⟨fun hi => ?_, fun hi => ?_, fun hi => ?_⟩
    · exact hran.ie_cases.resolve_right fun hiret => hi hiret.1
    · exact hran.out_cases.resolve_right fun ⟨q, hprn, _⟩ => hi q.index hprn
    · exact .inl (hran.status_err.resolve_right fun hhlt => hi hhlt.1)

/-! ## Flags -/

theorem Ran.fl_cases {s t : State} {i : Instr} (h : Ran s i t) :
    t.fl = s.fl ∨ (∃ a b, i = .cmp a b) ∨ i = .iret := by
  cases h with
  | cmp ra rb => exact .inr (.inl ⟨ra.index, rb.index, rfl⟩)
  | iret => exact .inr (.inr rfl)
  | reg | prn | hlt | jmp | noJmp | call | int => exact .inl rfl

theorem State.enterInterrupt_fl {s t : State} {i : Fin 8} (h : s.enterInterrupt i = .ok t) : t.fl = s.fl := by
  rw [State.enterInterrupt_frame h]

/-- A step that changes FL is a tick that runs CMP or IRET (10_state.md R35). -/
theorem runs_cmp_or_iret_of_step_fl_ne {s t : State} (h : step s = .next t) (hfl : t.fl ≠ s.fl) :
    ∃ f i, s.fetch = .ok f ∧ decodeFetched s.params f.ir f.opA f.opB = some i ∧
      ((∃ a b, i = .cmp a b) ∨ i = .iret) := by
  rcases step_cases h with ⟨_, rfl⟩ | ⟨_, rfl⟩ | ⟨hrun, _⟩
  · exact absurd (State.start_fl s) hfl
  · exact absurd rfl hfl
  · rcases step_cases_running hrun h with ⟨e, rfl⟩ | ⟨i, _, hent⟩ | ⟨f, i, _, hf, hd, _, hran⟩
    · exact absurd (State.raise_fl s e) hfl
    · exact absurd (State.enterInterrupt_fl hent) hfl
    · exact ⟨f, i, hf, hd, hran.fl_cases.resolve_left hfl⟩

theorem Ran.eq_returned {s t : State} (h : Ran s .iret t) : t = s.returned := by
  cases h with
  | iret => rfl
  | reg _ _ _ hi => simp at hi
  | jmp _ _ hi => simp at hi
  | noJmp _ _ hi => simp at hi

/-- Settles O42: which steps change FL; CMP's flags by its equation, IRET's by the state it returns to. -/
theorem onlyCompareAndReturnWriteFlags : Obligations.OnlyCompareAndReturnWriteFlags := by
  refine ⟨fun s t => runs_cmp_or_iret_of_step_fl_ne, fun s t ra rb h => ?_, fun s t h hne => ?_⟩
  · have ht := Host.Outcome.next.inj (h.symm.trans (exec_cmp_index s ra rb))
    have hfl : t.fl = Flags.compare (s.x ra) (s.x rb) := congrArg State.fl ht
    rw [hfl, Flags.compare_eq]
    exact ⟨rfl, rfl, rfl⟩
  · rcases exec_cases h with ⟨e, ht⟩ | hran
    · exact absurd ht (hne e)
    · rw [hran.eq_returned]
      exact ⟨rfl, rfl, rfl⟩

/-! ## The PC -/

/-- Settles O44: the PC of each way to run, by the mnemonics that run so. -/
theorem programCounterAdvance : Obligations.ProgramCounterAdvance := by
  intro s t i h hne
  rcases exec_cases h with ⟨e, ht⟩ | hran
  · exact absurd ht (hne e)
  · cases hran with
    | reg i r v hi =>
      rcases hi with ⟨imm, rfl⟩ | ⟨b, rfl | rfl | rfl | rfl⟩ | rfl | rfl <;> simp [Instr.kind]
    | hlt pc hpc => simp +contextual [Instr.kind, hpc]
    | jmp r i hi => rcases hi with rfl | ⟨rfl, he⟩ | ⟨rfl, he⟩ <;> simp [Instr.kind, *]
    | noJmp r i hi => rcases hi with ⟨rfl, _⟩ | ⟨rfl, _⟩ <;> simp [Instr.kind]
    | prn | cmp | call | int | iret => simp [Instr.kind]

end Sys2Proof.Machine
end
